-- ==== Sys2Proof/Word.lean ====
section
/-! DEFINITION. The word types of the BFC. Everything is unsigned (42_probe_derivation.md R136). -/

namespace Sys2Proof

/-- A byte, where a platform shows the register window on a byte-addressed bus (20_memory.md R51). -/
abbrev Byte := BitVec 8

/-- A register of the window, a command word, or a probe half `a`, `b` (10_state.md R11, R29). -/
abbrev Word := BitVec 32

/-- A key, a seed, a hash or a full product (42_probe_derivation.md R136). -/
abbrev DWord := BitVec 64

end Sys2Proof
end

