-- ==== Sys2Proof/Config.lean ====
section
/-! DEFINITION. What an implementation of the BFC fixes (00_scope.md R8) and the values the spec leaves free. -/

namespace Sys2Proof

/-- The numeric parameters of 00_scope.md R8, each the 32-bit value its constant register reads
(10_state.md R16, R25: "a parameter value that does not fit 32 bits is not a legal parameter value").
The machine carries them in its constant registers, so a statement about every state is about every
choice of them (log 1). -/
structure Params where
  /-- `ID_VALUE` -/
  idValue : Word
  /-- `W`, the width in bits of one storage word -/
  wordWidth : Word
  /-- `MAX_WORDS`, the number of words of the bit array -/
  maxWords : Word
  /-- `K_MAX`, the largest legal probe count -/
  kMax : Word
  /-- `P`, the number of probe lanes -/
  lanes : Word
deriving DecidableEq, Repr

/-- The constraints of 00_scope.md R8: `W >= 1`, `MAX_WORDS >= 1`, `1 <= P <= K_MAX`
(so `K_MAX >= 1`; the upper bounds `2^32 - 1` hold of any 32-bit value). -/
def Params.legal (p : Params) : Bool :=
  decide (1 ≤ p.wordWidth.toNat) && decide (1 ≤ p.maxWords.toNat) &&
    decide (1 ≤ p.lanes.toNat) && decide (p.lanes.toNat ≤ p.kMax.toNat)

/-- The defaults of 00_scope.md R8. -/
def Params.default : Params where
  idValue := 0x42464331
  wordWidth := 64
  maxWords := 131072
  kMax := 255
  lanes := 4

/-- `HASH64(key, seed)`: the hash unit, a total function and nothing else is known of it
(00_scope.md R8, 42_probe_derivation.md R141; log 2). -/
opaque Config.hash64 : DWord → DWord → DWord

/-- `SeedDraw()`: the answer to the draw with this number, under no law (10_state.md R32; log 3). -/
opaque Config.seedDraw : Nat → DWord

/-- `FLT.seed` after the `rst` event with this number: unspecified (10_state.md R37; log 12). -/
opaque Config.seedAfterReset : Nat → DWord

/-- `CMD_LATCH` after the `rst` event with this number: unspecified (10_state.md R33, R37; log 12). -/
opaque Config.latchAfterReset : Nat → Word

/-- The data of the malformed read with this number: unspecified (20_memory.md R52; log 9). -/
opaque Config.malformedReadData : Nat → Word

end Sys2Proof
end

