-- ==== Sys2Proof/Syntax.lean ====
section
/-! DEFINITION. The commands of the BFC, the names of its registers, and what its environment can do to it. -/

namespace Sys2Proof

/-- The four commands of 30_encoding.md R72. Operands are implicit (R71), so no constructor has a field. -/
inductive Instr where
  /-- `INIT`, 0x00000001 (41_lifecycle.md R110) -/
  | cmdInit
  /-- `SET`, 0x00000002 (43_set.md R150) -/
  | cmdSet
  /-- `SEAL`, 0x00000003 (41_lifecycle.md R115) -/
  | cmdSeal
  /-- `TEST`, 0x00000004 (44_test.md R160) -/
  | cmdTest
deriving DecidableEq, Repr

/-- The registers of the window (10_state.md R11). -/
inductive Reg where
  | id | ctrl | status | cmd
  | cfgBitCount | cfgProbeCount | keyLo | keyHi
  | fltBitCount | fltProbeCount | fltWordCount | fltCapacityLo | fltCapacityHi
  | paramWordWidth | paramMaxWords | paramKMax | paramLanes
deriving DecidableEq, Repr

/-- One bus access is a read, or a write of 32-bit data (20_memory.md R52; the data of a malformed
write has no effect, so 32 bits are enough to write any access down). -/
inductive AccessKind where
  | read
  | write (data : Word)
deriving DecidableEq, Repr

/-- A bus access to the register window by byte offset (20_memory.md R50, R58; `BASE`: log 15). -/
structure Access where
  kind : AccessKind
  /-- width in bits -/
  width : Nat
  offset : Nat
deriving DecidableEq, Repr

/-- What the environment does next (00_scope.md R7; log 7). -/
inductive Event where
  /-- the host makes a bus access -/
  | access (a : Access)
  /-- the command engine takes its completion step now, if a command is in flight -/
  | engine
  /-- `rst` is asserted and released at once (70_reset_and_hazards.md R210; log 19) -/
  | rst
deriving DecidableEq, Repr

/-- A 32-bit write of `v` at `offset`. -/
abbrev Event.write (offset : Nat) (v : Word) : Event := .access ⟨.write v, 32, offset⟩

/-- A 32-bit read at `offset`. -/
abbrev Event.read (offset : Nat) : Event := .access ⟨.read, 32, offset⟩

/-- The statements of the textual notation: the primitive ones of 30_encoding.md R78, then the
pseudo-statements of R79. `bitsPerKey` is a real number (40_config_sizing.md R90). -/
inductive Stmt where
  | wr (r : Reg) (v : Word)
  | rd (r : Reg)
  | wait
  | init
  | set
  | sealing
  | test
  | key (v : DWord)
  | cfg (m k : Word)
  | insert (v : DWord)
  | query (v : DWord)
  | getbitcount
  | construct (keys : List DWord) (bitsPerKey : ℝ)

/-- What a host does, one at a time: the accesses and the wait of 30_encoding.md R78, to which every
statement expands, and the check `require x[STATUS].ERR = E_NONE`, which only the host procedure of
40_config_sizing.md R100 has. -/
inductive HostOp where
  | wr (r : Reg) (v : Word)
  | rd (r : Reg)
  | wait
  | require
deriving DecidableEq, Repr

/-- Who moves next when a host runs a program: the host, or its environment (log 17). -/
inductive Turn where
  | host
  | env (e : Event)
deriving DecidableEq, Repr

end Sys2Proof
end

