-- ==== Sys2Proof/WellFormed.lean ====
section
/-! DEFINITION. Which command words, commands and bus accesses are well formed. -/

namespace Sys2Proof

/-- A command has no operand field, so every term of the type is well formed (30_encoding.md R71). -/
def Instr.wellFormed : Instr → Bool
  | .cmdInit => true
  | .cmdSet => true
  | .cmdSeal => true
  | .cmdTest => true

/-- A command word is legal when `ZERO` (bits 31:8) is 0 and `OPCODE` (bits 7:0) is one of
`0x01 .. 0x04` (30_encoding.md R70, R72, R73). -/
def commandWordWellFormed (c : Word) : Bool :=
  decide (c.extractLsb' 8 24 = 0) && decide (1 ≤ (c.extractLsb' 0 8).toNat) &&
    decide ((c.extractLsb' 0 8).toNat ≤ 4)

/-- A register window access is 32 bits wide at a multiple of 4 below 0x100 (20_memory.md R52). -/
def Access.wellFormed (a : Access) : Bool :=
  decide (a.width = 32) && decide (a.offset % 4 = 0) && decide (a.offset < 0x100)

end Sys2Proof
end

