-- ==== Sys2Proof/Decode.lean ====
section
/-! DEFINITION. Decoding a command word and encoding a command, from the opcode map of 30_encoding.md. -/

namespace Sys2Proof

/-- Why bytes are no command (30_encoding.md R73). Raised by the decoder only. -/
inductive DecodeError where
  /-- fewer than the four bytes of a command word -/
  | truncated
  /-- `ZERO`, bits 31:8, is not 0 -/
  | zeroFieldSet
  /-- `OPCODE` is 0x00 or 0x05 to 0xFF -/
  | unknownOpcode (opcode : Byte)
deriving DecidableEq, Repr

/-- The field `OPCODE`, bits 7:0 (30_encoding.md R70). -/
def opcodeField (c : Word) : Byte := c.extractLsb' 0 8

/-- The field `ZERO`, bits 31:8 (30_encoding.md R70). -/
def zeroField (c : Word) : BitVec 24 := c.extractLsb' 8 24

/-- The opcode map (30_encoding.md R72). -/
def decodeOpcode (op : Byte) : Except DecodeError Instr :=
  if op = 0x01 then .ok .cmdInit
  else if op = 0x02 then .ok .cmdSet
  else if op = 0x03 then .ok .cmdSeal
  else if op = 0x04 then .ok .cmdTest
  else .error (.unknownOpcode op)

/-- Decoding a command word, the same in every phase (30_encoding.md R72, R73, R74). -/
def decodeWord (c : Word) : Except DecodeError Instr :=
  if zeroField c = 0 then decodeOpcode (opcodeField c) else .error .zeroFieldSet

/-- The word whose little-endian bytes these are: the byte at offset 0 is bits 7:0 (20_memory.md R51). -/
def wordOfBytes (b0 b1 b2 b3 : Byte) : Word := b3 ++ b2 ++ b1 ++ b0

/-- Decoding the first command word of a byte sequence, with the bytes after it. -/
def decode : List Byte → Except DecodeError (Instr × List Byte)
  | b0 :: b1 :: b2 :: b3 :: rest =>
    match decodeWord (wordOfBytes b0 b1 b2 b3) with
    | .ok i => .ok (i, rest)
    | .error e => .error e
  | [] => .error .truncated
  | [_] => .error .truncated
  | [_, _] => .error .truncated
  | [_, _, _] => .error .truncated

/-- The command word of a command (30_encoding.md R72, column "full word"). -/
def encode : Instr → Word
  | .cmdInit => 0x00000001
  | .cmdSet => 0x00000002
  | .cmdSeal => 0x00000003
  | .cmdTest => 0x00000004

/-- The little-endian bytes of a word (20_memory.md R51). -/
def bytesOfWord (c : Word) : List Byte :=
  [c.extractLsb' 0 8, c.extractLsb' 8 8, c.extractLsb' 16 8, c.extractLsb' 24 8]

/-- The four bytes of a command's word as the host writes them to `CMD`. -/
def encodeBytes (i : Instr) : List Byte := bytesOfWord (encode i)

/-- The command the decoder reads from the first `nbits` bits of `w`, numbered as the opcode table
numbers them; a command is one 32-bit word (30_encoding.md R70, R74). -/
def decodeTableWord (nbits w : Nat) : Option Instr :=
  if w % 2 ^ nbits < 2 ^ 32 then
    match decode (bytesOfWord (BitVec.ofNat 32 (w % 2 ^ nbits))) with
    | .ok (i, _) => some i
    | .error _ => none
  else none

end Sys2Proof
end

