-- ==== Sys2Proof/Machine/State.lean ====
section
/-! DEFINITION. The state of the BFC (10_state.md R10), the machine's stops, and the state after reset. -/

namespace Sys2Proof.Machine

/-- The lifecycle phase (10_state.md R28); `STATUS.PHASE` = 3 is never read, so there is no fourth value. -/
inductive Phase where
  | empty | build | ready
deriving DecidableEq, Repr

/-- The outcome code of the last completed command (60_exceptions.md R181); 4 to 15 are never produced. -/
inductive ErrCode where
  /-- `E_NONE`: accepted -/
  | none
  /-- `E_ILLEGAL`: the word is no command (R182) -/
  | illegal
  /-- `E_CFG`: `INIT` with an illegal staging configuration (R183) -/
  | cfg
  /-- `E_PHASE`: `SET`, `SEAL` or `TEST` in the wrong phase (41_lifecycle.md R116) -/
  | phase
deriving DecidableEq, Repr

/-- The filter record `FLT` (10_state.md R30). -/
structure FilterRecord where
  /-- `FLT.m`, the bit count -/
  m : Word
  /-- `FLT.k`, the probe count -/
  k : Word
  /-- `FLT.wc`, the storage word count -/
  wc : Word
  /-- `FLT.seed`, hidden -/
  seed : DWord
deriving DecidableEq, Repr

/-- A storage word of the bit array: its word index and its `W`-bit content as a number, bit offset
`o` having weight `2^o` (10_state.md R34, 20_memory.md R53; log 6). -/
abbrev Cell := Nat × Nat

/-- The bit array `BITS`: the words that have a value, word indices strictly rising. A word that is
not listed has NO value (10_state.md R37; log 5). -/
abbrev Memory := List Cell

/-- The register port's answer to the last bus access (log 9). -/
inductive PortResponse where
  /-- no access since reset -/
  | idle
  /-- a well-formed read: its data -/
  | data (v : Word)
  /-- a well-formed write was taken -/
  | written
  /-- the bus error response to a malformed read, with unspecified data (60_exceptions.md R187) -/
  | readError (v : Word)
  /-- the bus error response to a malformed write (60_exceptions.md R187) -/
  | writeError
deriving DecidableEq, Repr

/-- The machine's stop. -/
inductive Fault where
  /-- Raised by the array accesses of `SET` and `TEST` when a word they read has no value
  (10_state.md R37: "give it no value and fault on a read"; 93_implementation_defined.md U14). Safe:
  no state that meets the invariant `Inv` reaches it. -/
  | unspecifiedWord
deriving DecidableEq, Repr

/-- The model's refusals. -/
inductive Refusal where
  /-- Raised by an arm of `exec` whose command has no meaning yet. Safe. No arm raises it. -/
  | notModelled (mnemonic : String)
deriving DecidableEq, Repr

structure State where
  /-- the constant registers `ID` and `PARAM_*` (10_state.md R16, R25; log 1) -/
  params : Params
  /-- `CTRL.IE` (10_state.md R14) -/
  ie : Bool
  /-- `STATUS.BUSY` (10_state.md R15) -/
  busy : Bool
  /-- `STATUS.DONE` -/
  done : Bool
  /-- `STATUS.HIT` -/
  hit : Bool
  /-- `STATUS.PHASE` (10_state.md R28) -/
  phase : Phase
  /-- `STATUS.ERR` (60_exceptions.md R181) -/
  err : ErrCode
  /-- `STATUS.BUSY_VIOL` (10_state.md R41) -/
  busyViol : Bool
  /-- `CFG_BIT_COUNT`, the staging `m` (10_state.md R18) -/
  cfgBitCount : Word
  /-- `CFG_PROBE_COUNT`, the staging `k` (10_state.md R19) -/
  cfgProbeCount : Word
  /-- `KEY_LO` (10_state.md R20) -/
  keyLo : Word
  /-- `KEY_HI` (10_state.md R20) -/
  keyHi : Word
  /-- the filter record (10_state.md R30) -/
  flt : FilterRecord
  /-- the bit array `BITS` (10_state.md R34) -/
  bits : Memory
  /-- `CMD_LATCH`, hidden (10_state.md R33) -/
  cmdLatch : Word
  /-- MODEL's own: what the environment does next, in order (log 7) -/
  pending : List Event
  /-- MODEL's own: the port's last answer (log 9) -/
  port : PortResponse
  /-- MODEL's own: seed draws consumed so far (log 3) -/
  draws : Nat
  /-- MODEL's own: `rst` events so far (log 12) -/
  resets : Nat
  /-- MODEL's own: malformed reads answered so far (log 9) -/
  badReads : Nat
deriving DecidableEq, Repr

/-- What `exec` and `step` answer. -/
abbrev Result := Host.Outcome State Fault Refusal

/-- The machine right after reset, at the default parameters (10_state.md R37, 00_scope.md R8).
`flt.seed` and `cmdLatch`, which R37 leaves unspecified, are 0 by DESIGN CHOICE (log 4). -/
def State.reset : State where
  params := Params.default
  ie := false
  busy := false
  done := false
  hit := false
  phase := .empty
  err := .none
  busyViol := false
  cfgBitCount := 0
  cfgProbeCount := 0
  keyLo := 0
  keyHi := 0
  flt := ⟨0, 0, 0, 0⟩
  bits := []
  cmdLatch := 0
  pending := []
  port := .idle
  draws := 0
  resets := 0
  badReads := 0

end Sys2Proof.Machine
end

