-- ==== Sys2Proof/Machine/Flags.lean ====
section
/-! DEFINITION. The `STATUS` and `CTRL` fields: how they read, and every rule by which they change. -/

namespace Sys2Proof.Machine

/-- The number of an outcome code in `STATUS.ERR` (60_exceptions.md R181). -/
def errNumber : ErrCode → BitVec 4
  | .none => 0
  | .illegal => 1
  | .cfg => 2
  | .phase => 3

/-- The number of a phase in `STATUS.PHASE` (10_state.md R28). -/
def phaseNumber : Phase → BitVec 2
  | .empty => 0
  | .build => 1
  | .ready => 2

/-- What `STATUS` reads (10_state.md R15): from the top, 31:13 reserved, 12 `BUSY_VIOL`, 11:8 `ERR`,
7:6 reserved, 5:4 `PHASE`, 3 reserved, 2 `HIT`, 1 `DONE`, 0 `BUSY`. -/
def statusWord (s : State) : Word :=
  0#19 ++ BitVec.ofBool s.busyViol ++ errNumber s.err ++ 0#2 ++ phaseNumber s.phase ++ 0#1 ++
    BitVec.ofBool s.hit ++ BitVec.ofBool s.done ++ BitVec.ofBool s.busy

/-- What `CTRL` reads: bit 0 `IE`, the rest reserved (10_state.md R14). -/
def ctrlWord (s : State) : Word := 0#31 ++ BitVec.ofBool s.ie

/-- The interrupt wire (10_state.md R36). -/
def irq (s : State) : Bool := s.ie && s.done

/-- The four `STATUS` fields every completion writes (30_encoding.md R76). -/
def publish (e : ErrCode) (hit : Bool) (s : State) : State :=
  { s with err := e, hit := hit, busy := false, done := true }

/-- A write of `v` to `CTRL`: only `IE` exists (10_state.md R14). -/
def writeCtrl (v : Word) (s : State) : State := { s with ie := v.getLsbD 0 }

/-- A write of `v` to `STATUS`: bit 1 clears `DONE`, bit 12 clears `BUSY_VIOL`, nothing else
(10_state.md R15). -/
def writeStatus (v : Word) (s : State) : State :=
  { s with done := s.done && !v.getLsbD 1, busyViol := s.busyViol && !v.getLsbD 12 }

/-- The issue of the command word `c` (30_encoding.md R75). -/
def issue (c : Word) (s : State) : State :=
  { s with cmdLatch := c, busy := true, done := false }

/-- A write while a command is in flight: lost, and flagged (10_state.md R41). -/
def flagBusyViolation (s : State) : State := { s with busyViol := true }

end Sys2Proof.Machine
end

