-- ==== Sys2Proof/Machine/Ops.lean ====
section
/-! DEFINITION. The operations over the bit array and over the register file, the refusal of a command
(the BFC's exception entry), and the reset event. -/

namespace Sys2Proof.Machine

/-! ### The bit array (20_memory.md) -/

/-- The canonical form of a bit array whose first word index is at least `lo`: word indices strictly
rising and below `maxWords`, contents of `W` bits. -/
def Memory.wfFrom (W maxWords : Nat) : Nat → Memory → Bool
  | _, [] => true
  | lo, (j, v) :: rest =>
    decide (lo ≤ j) && decide (j < maxWords) && decide (v < 2 ^ W) &&
      Memory.wfFrom W maxWords (j + 1) rest

/-- The canonical form (10_state.md R34; log 6). An unlisted word has no value, so no entry is redundant. -/
def Memory.wf (W maxWords : Nat) (mem : Memory) : Bool := Memory.wfFrom W maxWords 0 mem

/-- `MemRead(j, W)` (00_scope.md 6.2); `none` where the word has no value (log 5). -/
def memRead : Memory → Nat → Option Nat
  | [], _ => none
  | (i, v) :: rest, j => if j = i then some v else memRead rest j

/-- `MemWrite(j, W, v)` (00_scope.md 6.2). -/
def memWrite : Memory → Nat → Nat → Memory
  | [], j, v => [(j, v)]
  | (i, w) :: rest, j, v =>
    if j < i then (j, v) :: (i, w) :: rest
    else if j = i then (j, v) :: rest
    else (i, w) :: memWrite rest j v

/-- `MemOr(j, W, mask)`, one indivisible action (20_memory.md R56). -/
def memOr (mem : Memory) (j mask : Nat) : Option Memory :=
  match memRead mem j with
  | some v => some (memWrite mem j (v ||| mask))
  | none => none

/-- `for j in 0 .. n-1: MemWrite(j, W, 0)` (41_lifecycle.md R110, R113). The law `zeroWords_eq_loop`
says that this is that loop. -/
def zeroWords (n : Nat) (mem : Memory) : Memory :=
  (List.range n).map (fun j => (j, 0)) ++ mem.filter (fun c => decide (n ≤ c.1))

/-- `BITS[idx div W][idx mod W]` (20_memory.md R53; log 14). -/
def bitAt (W : Nat) (mem : Memory) (idx : Nat) : Option Bool :=
  match memRead mem (idx / W) with
  | some v => some (v.testBit (idx % W))
  | none => none

/-- "Set bit `idx`": `MemOr(idx div W, W, 1 << (idx mod W))` (20_memory.md R53). -/
def setBit (W : Nat) (mem : Memory) (idx : Nat) : Option Memory :=
  memOr mem (idx / W) (1 <<< (idx % W))

/-- The bit-set loop of `SET` over a probe sequence (43_set.md R150). -/
def setBits (W : Nat) : Memory → List Word → Option Memory
  | mem, [] => some mem
  | mem, idx :: rest =>
    match setBit W mem idx.toNat with
    | some mem' => setBits W mem' rest
    | none => none

/-- The bit-test loop of `TEST` over a probe sequence, with its early exit (44_test.md R160). -/
def testBits (W : Nat) (mem : Memory) : List Word → Option Bool
  | [] => some true
  | idx :: rest =>
    match bitAt W mem idx.toNat with
    | some true => testBits W mem rest
    | some false => some false
    | none => none

/-! ### The registers (10_state.md) -/

/-- The register at a byte offset of the window; the offsets not listed are reserved (10_state.md R11). -/
def regAt : Nat → Option Reg
  | 0x00 => some .id
  | 0x04 => some .ctrl
  | 0x08 => some .status
  | 0x0C => some .cmd
  | 0x10 => some .cfgBitCount
  | 0x14 => some .cfgProbeCount
  | 0x18 => some .keyLo
  | 0x1C => some .keyHi
  | 0x20 => some .fltBitCount
  | 0x24 => some .fltProbeCount
  | 0x28 => some .fltWordCount
  | 0x2C => some .fltCapacityLo
  | 0x30 => some .fltCapacityHi
  | 0x34 => some .paramWordWidth
  | 0x38 => some .paramMaxWords
  | 0x3C => some .paramKMax
  | 0x40 => some .paramLanes
  | _ => none

/-- The byte offset of a register (10_state.md R11). -/
def regOffset : Reg → Nat
  | .id => 0x00
  | .ctrl => 0x04
  | .status => 0x08
  | .cmd => 0x0C
  | .cfgBitCount => 0x10
  | .cfgProbeCount => 0x14
  | .keyLo => 0x18
  | .keyHi => 0x1C
  | .fltBitCount => 0x20
  | .fltProbeCount => 0x24
  | .fltWordCount => 0x28
  | .fltCapacityLo => 0x2C
  | .fltCapacityHi => 0x30
  | .paramWordWidth => 0x34
  | .paramMaxWords => 0x38
  | .paramKMax => 0x3C
  | .paramLanes => 0x40

/-- `FLT.wc * W`, 64 bits (10_state.md R24, 45_capacity.md R170). -/
def capacity (s : State) : DWord := s.flt.wc.setWidth 64 * s.params.wordWidth.setWidth 64

/-- What a read of a register returns (10_state.md R14 to R25, R12 for the write-only `CMD`). -/
def readReg (s : State) : Reg → Word
  | .id => s.params.idValue
  | .ctrl => ctrlWord s
  | .status => statusWord s
  | .cmd => 0
  | .cfgBitCount => s.cfgBitCount
  | .cfgProbeCount => s.cfgProbeCount
  | .keyLo => s.keyLo
  | .keyHi => s.keyHi
  | .fltBitCount => s.flt.m
  | .fltProbeCount => s.flt.k
  | .fltWordCount => s.flt.wc
  | .fltCapacityLo => (capacity s).extractLsb' 0 32
  | .fltCapacityHi => (capacity s).extractLsb' 32 32
  | .paramWordWidth => s.params.wordWidth
  | .paramMaxWords => s.params.maxWords
  | .paramKMax => s.params.kMax
  | .paramLanes => s.params.lanes

/-- A write to a register with no command in flight (10_state.md R12 to R20, 40_config_sizing.md R99):
read-only registers ignore it, `CMD` issues. -/
def writeReg (r : Reg) (v : Word) (s : State) : State :=
  match r with
  | .ctrl => writeCtrl v s
  | .status => writeStatus v s
  | .cmd => issue v s
  | .cfgBitCount => { s with cfgBitCount := v }
  | .cfgProbeCount => { s with cfgProbeCount := v }
  | .keyLo => { s with keyLo := v }
  | .keyHi => { s with keyHi := v }
  | .id => s
  | .fltBitCount => s
  | .fltProbeCount => s
  | .fltWordCount => s
  | .fltCapacityLo => s
  | .fltCapacityHi => s
  | .paramWordWidth => s
  | .paramMaxWords => s
  | .paramKMax => s
  | .paramLanes => s

/-! ### Completion, refusal, reset -/

/-- `raise E_X`: taking the BFC's exception. The command in flight completes with the code and with no
other effect; control goes nowhere, no state is saved (60_exceptions.md R184). There is no return
instruction (R186): the next command may be issued at once, and `writeStatus` clears `DONE`. -/
def refuseCommand (e : ErrCode) (s : State) : State := publish e false s

/-- An accepted command completes: `ERR` is `E_NONE`, `HIT` its answer, 0 for all but `TEST`
(30_encoding.md R76). -/
def acceptCommand (hit : Bool) (s : State) : State := publish .none hit s

/-- The reset event (70_reset_and_hazards.md R210, R211; values of 10_state.md R37). What R37 leaves
unspecified gets a free value, the array no value; the constants and what is outside the BFC stay
(log 12); `rst` is not held (log 19). -/
def assertReset (s : State) : State where
  params := s.params
  ie := false
  busy := false
  done := false
  hit := false
  phase := .empty
  err := .none
  busyViol := false
  cfgBitCount := 0
  cfgProbeCount := 0
  keyLo := 0
  keyHi := 0
  flt := ⟨0, 0, 0, Config.seedAfterReset s.resets⟩
  bits := []
  cmdLatch := Config.latchAfterReset s.resets
  pending := s.pending
  port := .idle
  draws := s.draws
  resets := s.resets + 1
  badReads := s.badReads

end Sys2Proof.Machine
end

