-- ==== Sys2Proof/Machine/Operands.lean ====
section
/-! DEFINITION. The implicit operands of the commands (30_encoding.md R71). -/

namespace Sys2Proof.Machine

/-- `KEY = (KEY_HI, KEY_LO)`, the operand of `SET` and `TEST` (10_state.md R20). -/
def keyOperand (s : State) : DWord := s.keyHi ++ s.keyLo

/-- `ceil(x / y)` on integers (00_scope.md 6.1). -/
def ceilDiv (x y : Nat) : Nat := (x + y - 1) / y

/-- The word count `ceil(m / W)` of the staging configuration, computed without 32-bit overflow
(41_lifecycle.md R110). -/
def stagedWordCount (s : State) : Nat := ceilDiv s.cfgBitCount.toNat s.params.wordWidth.toNat

/-- The configuration check of `INIT` (41_lifecycle.md R111). -/
def stagedConfigLegal (s : State) : Bool :=
  decide (1 ≤ s.cfgBitCount.toNat) && decide (1 ≤ s.cfgProbeCount.toNat) &&
    decide (s.cfgProbeCount.toNat ≤ s.params.kMax.toNat) &&
    decide (stagedWordCount s ≤ s.params.maxWords.toNat)

/-- `v[63:32]`: the high half of a hash (42_probe_derivation.md R131) or of a key (30_encoding.md R79). -/
def highHalf (v : DWord) : Word := v.extractLsb' 32 32

/-- `v[31:0]` (42_probe_derivation.md R131, 30_encoding.md R79). -/
def lowHalf (v : DWord) : Word := v.extractLsb' 0 32

end Sys2Proof.Machine
end

