-- ==== Sys2Proof/Machine/Probes.lean ====
section
/-! DEFINITION. The probe-position derivation shared by `SET` and `TEST` (42_probe_derivation.md). -/

namespace Sys2Proof.Machine

/-- `reduce(a, m) = (a * m)[63:32]`, the product taken in 64 bits (42_probe_derivation.md R132). -/
def reduce (a m : Word) : Word := (a.setWidth 64 * m.setWidth 64).extractLsb' 32 32

/-- The loop of 42_probe_derivation.md R134 from the running value `a`: reduce (R132), advance (R133),
`k` times. `a`, `b` and the counter are the working values of 10_state.md R29 (log 10). -/
def probesFrom (b m : Word) : Nat → Word → List Word
  | 0, _ => []
  | k + 1, a => reduce a m :: probesFrom b m k (a + b)

/-- The probe sequence of a hash (42_probe_derivation.md R131, R134). -/
def probesOfHash (h : DWord) (m : Word) (k : Nat) : List Word :=
  probesFrom (lowHalf h) m k (highHalf h)

/-- `Probes(key, FLT)`, with the one hash evaluation (42_probe_derivation.md R134). -/
def probes (key : DWord) (flt : FilterRecord) : List Word :=
  probesOfHash (Config.hash64 key flt.seed) flt.m flt.k.toNat

end Sys2Proof.Machine
end

