-- ==== Sys2Proof/Machine/Insert.lean ====
section
/-! DEFINITION. The meaning of `SET` (43_set.md). -/

namespace Sys2Proof.Machine

/-- The effect of `SET` on a filter under construction, given the probe sequence (43_set.md R150). -/
def insertProbes (idxs : List Word) (s : State) : Result :=
  match setBits s.params.wordWidth.toNat s.bits idxs with
  | some mem => .next (acceptCommand false { s with bits := mem })
  | none => .fault .unspecifiedWord

/-- `SET` (43_set.md R150). -/
def execSet (s : State) : Result :=
  if s.phase = .build then insertProbes (probes (keyOperand s) s.flt) s
  else .next (refuseCommand .phase s)

end Sys2Proof.Machine
end

