-- ==== Sys2Proof/Machine/Lifecycle.lean ====
section
/-! DEFINITION. The meanings of `INIT` and `SEAL` (41_lifecycle.md). -/

namespace Sys2Proof.Machine

/-- The filter record an accepted `INIT` creates, with its seed draw (41_lifecycle.md R110). -/
def newRecord (s : State) : FilterRecord where
  m := s.cfgBitCount
  k := s.cfgProbeCount
  wc := BitVec.ofNat 32 (stagedWordCount s)
  seed := Config.seedDraw s.draws

/-- `INIT` (41_lifecycle.md R110 to R114). -/
def execInit (s : State) : Result :=
  if stagedConfigLegal s then
    .next (acceptCommand false
      { s with
        flt := newRecord s
        bits := zeroWords (stagedWordCount s) s.bits
        draws := s.draws + 1
        phase := .build })
  else .next (refuseCommand .cfg s)

/-- `SEAL` (41_lifecycle.md R115). -/
def execSeal (s : State) : Result :=
  if s.phase = .build then .next (acceptCommand false { s with phase := .ready })
  else .next (refuseCommand .phase s)

end Sys2Proof.Machine
end

