-- ==== Sys2Proof/Machine/Query.lean ====
section
/-! DEFINITION. The meaning of `TEST` (44_test.md). -/

namespace Sys2Proof.Machine

/-- The effect of `TEST` on a finished filter, given the probe sequence (44_test.md R160). -/
def queryProbes (idxs : List Word) (s : State) : Result :=
  match testBits s.params.wordWidth.toNat s.bits idxs with
  | some answer => .next (acceptCommand answer s)
  | none => .fault .unspecifiedWord

/-- `TEST` (44_test.md R160). -/
def execTest (s : State) : Result :=
  if s.phase = .ready then queryProbes (probes (keyOperand s) s.flt) s
  else .next (refuseCommand .phase s)

end Sys2Proof.Machine
end

