-- ==== Sys2Proof/Machine/Dispatch.lean ====
section
/-! DEFINITION. One arm per command: the whole of its completion step (30_encoding.md R76). -/

namespace Sys2Proof.Machine

def exec (i : Instr) (s : State) : Host.Outcome State Fault Refusal :=
  match i with
  | .cmdInit => Sys2Proof.Machine.execInit s
  | .cmdSet => Sys2Proof.Machine.execSet s
  | .cmdSeal => Sys2Proof.Machine.execSeal s
  | .cmdTest => Sys2Proof.Machine.execTest s

end Sys2Proof.Machine
end

