-- ==== Sys2Proof/Machine/Port.lean ====
section
/-! DEFINITION. The register port: what one bus access does (10_state.md R11 to R41, 20_memory.md R52). -/

namespace Sys2Proof.Machine

/-- What a well-formed read returns; reserved offsets read 0 (10_state.md R13). -/
def portRead (s : State) (offset : Nat) : Word :=
  match regAt offset with
  | some r => readReg s r
  | none => 0

/-- The effect of a well-formed write: while busy it is lost and flagged, whatever the offset
(10_state.md R41); reserved offsets ignore it (R13). -/
def portWrite (offset : Nat) (v : Word) (s : State) : State :=
  if s.busy then flagBusyViolation s
  else
    match regAt offset with
    | some r => writeReg r v s
    | none => s

/-- A malformed access changes nothing of the BFC; a read returns a free value (20_memory.md R52,
60_exceptions.md R187; log 9). -/
def portRefuse (kind : AccessKind) (s : State) : State :=
  match kind with
  | .read => { s with port := .readError (Config.malformedReadData s.badReads), badReads := s.badReads + 1 }
  | .write _ => { s with port := .writeError }

/-- One bus access. -/
def portAccess (a : Access) (s : State) : State :=
  if a.wellFormed then
    match a.kind with
    | .read => { s with port := .data (portRead s a.offset) }
    | .write v => { portWrite a.offset v s with port := .written }
  else portRefuse a.kind s

end Sys2Proof.Machine
end

