-- ==== Sys2Proof/Machine/Engine.lean ====
section
/-! DEFINITION. The command engine's completion step and the order in which the environment acts. -/

namespace Sys2Proof.Machine

/-- The engine's step *complete*: decode `CMD_LATCH`, then run the command or refuse the word
(30_encoding.md R76, R77). -/
def complete (s : State) : Result :=
  match decodeWord s.cmdLatch with
  | .ok i => exec i s
  | .error _ => .next (refuseCommand .illegal s)

/-- The engine's turn: its one step is enabled exactly while a command is in flight (30_encoding.md
R76); idle, the BFC does nothing (60_exceptions.md R198; log 8). -/
def engineTurn (s : State) : Result :=
  if s.busy then complete s else .next s

/-- An event of the environment (00_scope.md R7; log 7). `rst` has no held interval: what comes after it is
served as at any other time (DESIGN CHOICE, unsafe; log 19). -/
def takeEvent (e : Event) (s : State) : Result :=
  match e with
  | .access a => .next (portAccess a s)
  | .engine => engineTurn s
  | .rst => .next (assertReset s)

/-- The head of `pending` happens; with nothing pending it is the engine's turn (log 7). -/
def nextMove (s : State) : Result :=
  match s.pending with
  | [] => engineTurn s
  | e :: rest => takeEvent e { s with pending := rest }

/-- `s` just after the issue of the command word `c` (30_encoding.md R75) with nothing else pending,
so that the next move completes that command (log 11). -/
def justIssued (c : Word) (s : State) : State := { issue c s with pending := [] }

end Sys2Proof.Machine
end

