-- ==== Sys2Proof/Machine/Step.lean ====
section
/-! DEFINITION. One step of the machine, and where it takes its next command from. -/

namespace Sys2Proof.Machine

/-- One step (00_scope.md R7; log 7). -/
def step (s : State) : Host.Outcome State Fault Refusal := nextMove s

/-- The state in which `step` fetches and runs exactly the command word `w` (log 11). -/
def State.withFetchWord (s : State) (nbits w : Nat) : State :=
  justIssued (BitVec.ofNat 32 (w % 2 ^ nbits)) s

end Sys2Proof.Machine
end

