-- ==== Sys2Proof/Machine/Sizing.lean ====
section
/-! DEFINITION. The host's sizing of a filter (40_config_sizing.md): done by the host, never by the BFC
(00_scope.md R6). -/

namespace Sys2Proof.Machine

/-- The result of sizing (40_config_sizing.md R96). -/
structure Sizing where
  n : Nat
  m : Nat
  k : Nat
  wc : Nat
deriving DecidableEq, Repr

/-- `z = Size(count, bitsPerKey)` for a storage word width `W`, in exact real arithmetic
(40_config_sizing.md R90 to R96). No `z` where `bitsPerKey` is not positive (R98). -/
def Size (W count : Nat) (bitsPerKey : ℝ) (z : Sizing) : Prop :=
  0 < bitsPerKey ∧
    z.n = max 1 count ∧
    (z.m : ℤ) = max 1 ⌊(z.n : ℝ) * bitsPerKey + 1 / 2⌋ ∧
    (z.k : ℤ) = max 1 ⌊(z.m : ℝ) / (z.n : ℝ) * Real.log 2 + 1 / 2⌋ ∧
    z.wc = ceilDiv z.m W

/-- The host's feasibility check (40_config_sizing.md R97). -/
def Sizing.feasible (p : Params) (z : Sizing) : Bool :=
  decide (z.m ≤ 2 ^ 32 - 1) && decide (z.wc ≤ p.maxWords.toNat) && decide (z.k ≤ p.kMax.toNat)

/-! ### Computing it for a rational `bitsPerKey` (log 16) -/

/-- `ln 2` lies between `lnTwoBelow` and `lnTwoBelow + 1`, over `lnTwoDenominator`. -/
def lnTwoBelow : Nat := 6931471805599453094172321214581765680755

/-- The denominator of `lnTwoBelow`. -/
def lnTwoDenominator : Nat := 10 ^ 40

/-- `round(x / y) = floor(x / y + 1/2)` for a non-negative fraction (40_config_sizing.md R91). -/
def roundFraction (x y : Nat) : Nat := (2 * x + y) / (2 * y)

/-- `m = max(1, round(n * bitsPerKey))` (40_config_sizing.md R93). -/
def sizeBits (n : Nat) (bitsPerKey : ℚ) : Nat :=
  max 1 (roundFraction (n * bitsPerKey.num.toNat) bitsPerKey.den)

/-- `k = max(1, round((m / n) * ln 2))` (40_config_sizing.md R94), where the two bounds of `ln 2` round
to the same number; no answer where they do not. -/
def sizeProbes (m n : Nat) : Option Nat :=
  let below := roundFraction (m * lnTwoBelow) (n * lnTwoDenominator)
  let above := roundFraction (m * (lnTwoBelow + 1)) (n * lnTwoDenominator)
  if below = above then some (max 1 below) else none

/-- `Size(count, bitsPerKey)` computed. -/
def sizeFilter (W count : Nat) (bitsPerKey : ℚ) : Option Sizing :=
  if 0 < bitsPerKey then
    let n := max 1 count
    let m := sizeBits n bitsPerKey
    match sizeProbes m n with
    | some k => some ⟨n, m, k, ceilDiv m W⟩
    | none => none
  else none

end Sys2Proof.Machine
end

