-- ==== Sys2Proof/Machine/HostProc.lean ====
section
/-! DEFINITION. The host's statements, their expansion and their bus writes (30_encoding.md R78, R79), and
a host that runs them on the BFC beside an environment that may move between any two of its accesses. -/

namespace Sys2Proof.Machine

/-! ### Expansion -/

/-- `init`, `set`, `seal`, `test`: `wr CMD` of the command's word (30_encoding.md R78). -/
def commandOp (i : Instr) : HostOp := .wr .cmd (encode i)

/-- `key v64` (30_encoding.md R79). -/
def keyOps (v : DWord) : List HostOp := [.wr .keyLo (lowHalf v), .wr .keyHi (highHalf v)]

/-- `cfg m, k` (30_encoding.md R79). -/
def cfgOps (m k : Word) : List HostOp := [.wr .cfgBitCount m, .wr .cfgProbeCount k]

/-- `insert v64` (30_encoding.md R79). -/
def insertOps (v : DWord) : List HostOp := keyOps v ++ [commandOp .cmdSet, .wait]

/-- `query v64` (30_encoding.md R79). -/
def queryOps (v : DWord) : List HostOp := keyOps v ++ [commandOp .cmdTest, .wait, .rd .status]

/-- `getbitcount` (30_encoding.md R79). -/
def getbitcountOps : List HostOp := [.rd .fltCapacityLo, .rd .fltCapacityHi]

/-- What `query` and `getbitcount` answer from the values read (30_encoding.md R79): `HIT`, valid if `ERR`
is 0; the capacity pair. -/
def queryAnswer (status : Word) : Option Bool :=
  if status.extractLsb' 8 4 = 0 then some (status.getLsbD 2) else none
def getbitcountAnswer (lo hi : Word) : DWord := hi ++ lo

/-- `cfg m, k`; `init`; `wait`; what stands `between`; an `insert` of each key; `seal`; `wait`. -/
def filterOps (between : List HostOp) (m k : Word) (keys : List DWord) : List HostOp :=
  cfgOps m k ++ [commandOp .cmdInit, .wait] ++ between ++ keys.flatMap insertOps ++
    [commandOp .cmdSeal, .wait]

/-- The pseudo-statement `construct` once `(m, k)` is known, its keys in their order (30_encoding.md R79). -/
def constructOps (m k : Word) (keys : List DWord) : List HostOp := filterOps [] m k keys

/-- What a host does to build a filter once `(m, k)` is known and found feasible: it checks that `INIT` was
accepted before it goes on (40_config_sizing.md R100). -/
def buildOps (m k : Word) (keys : List DWord) : List HostOp := filterOps [.require] m k keys

/-- `ops` is the expansion of the statement on a BFC with these parameters (30_encoding.md R78, R79).
`construct` has one whether or not the filter is feasible; it has none where `Size` has no result (R98) or
`m` is no 32-bit number, which "cannot even be written" (40_config_sizing.md R97). -/
def Expands (p : Params) (stmt : Stmt) (ops : List HostOp) : Prop :=
  match stmt with
  | .wr r v => ops = [.wr r v]
  | .rd r => ops = [.rd r]
  | .wait => ops = [.wait]
  | .init => ops = [commandOp .cmdInit]
  | .set => ops = [commandOp .cmdSet]
  | .sealing => ops = [commandOp .cmdSeal]
  | .test => ops = [commandOp .cmdTest]
  | .key v => ops = keyOps v
  | .cfg m k => ops = cfgOps m k
  | .insert v => ops = insertOps v
  | .query v => ops = queryOps v
  | .getbitcount => ops = getbitcountOps
  | .construct keys bitsPerKey =>
    ∃ z, Size p.wordWidth.toNat keys.length bitsPerKey z ∧ z.m < 2 ^ 32 ∧
      ops = constructOps (BitVec.ofNat 32 z.m) (BitVec.ofNat 32 z.k) keys

/-- `ops` is a run of the host procedure that builds a filter (40_config_sizing.md R100): the filter is
feasible (R97), and the keys come in any order. -/
def Builds (p : Params) (keys : List DWord) (bitsPerKey : ℝ) (ops : List HostOp) : Prop :=
  ∃ z order, Size p.wordWidth.toNat keys.length bitsPerKey z ∧ z.feasible p = true ∧ order.Perm keys ∧
    ops = buildOps (BitVec.ofNat 32 z.m) (BitVec.ofNat 32 z.k) order

/-- The expansion of a program, statement by statement. -/
def ProgramExpands (p : Params) : List Stmt → List HostOp → Prop
  | [], ops => ops = []
  | stmt :: rest, ops => ∃ a b, Expands p stmt a ∧ ProgramExpands p rest b ∧ ops = a ++ b

/-- The encoding of a program: its bus writes, each an offset and its data; reads and waits encode
nothing (30_encoding.md R78). -/
def encoding : List HostOp → List (Nat × Word)
  | [] => []
  | .wr r v :: rest => (regOffset r, v) :: encoding rest
  | .rd _ :: rest => encoding rest
  | .wait :: rest => encoding rest
  | .require :: rest => encoding rest

/-- The writes among bus accesses, as an encoding lists them. -/
def writesOf : List Access → List (Nat × Word)
  | [] => []
  | ⟨.write v, _, offset⟩ :: rest => (offset, v) :: writesOf rest
  | ⟨.read, _, _⟩ :: rest => writesOf rest

/-! ### Running a program (log 17) -/

/-- A host part of the way through a program. -/
structure HostRun where
  machine : State
  /-- what is left to do, next first -/
  program : List HostOp
  /-- the accesses made so far, oldest first -/
  accesses : List Access
  /-- the values read so far, latest first -/
  reads : List Word
  /-- a `require` was not met and the host gave up (DESIGN CHOICE; log 17) -/
  failed : Bool
deriving DecidableEq, Repr

/-- At the start of a program; the environment's moves come as turns, so nothing is pending. -/
def HostRun.start (s : State) (ops : List HostOp) : HostRun := ⟨{ s with pending := [] }, ops, [], [], false⟩

/-- The bus access of a host operation (30_encoding.md R78). -/
def opAccess : HostOp → Option Access
  | .wr r v => some ⟨.write v, 32, regOffset r⟩
  | .rd r => some ⟨.read, 32, regOffset r⟩
  | .wait => some ⟨.read, 32, regOffset .status⟩
  | .require => none

/-- The value the port has just answered, if the access was a read. -/
def portValue (s : State) : List Word :=
  match s.port with
  | .data v => [v]
  | .readError v => [v]
  | .idle => []
  | .written => []
  | .writeError => []

/-- What is left of `op :: rest` after the access of `op`: `wait` repeats until the value it read has
`BUSY` = 0 (30_encoding.md R78). -/
def opsLeft (op : HostOp) (rest : List HostOp) (values : List Word) : List HostOp :=
  match op with
  | .wait => if values.any (fun v => v.getLsbD 0) then .wait :: rest else rest
  | .wr _ _ => rest
  | .rd _ => rest
  | .require => rest

/-- `require x[STATUS].ERR = E_NONE`, of the value the wait before it read last (40_config_sizing.md R100;
log 17). -/
def requireMet : List Word → Bool
  | [] => false
  | v :: _ => decide (v.extractLsb' 8 4 = 0)

/-- The host's next operation. Where a `require` is not met the host gives up (DESIGN CHOICE; log 17). -/
def hostTurn (r : HostRun) : Host.Outcome HostRun Fault Refusal :=
  match r.program with
  | [] => .next r
  | op :: rest =>
    match opAccess op with
    | some a =>
      match step { r.machine with pending := [.access a] } with
      | .next t =>
        .next ⟨t, opsLeft op rest (portValue t), r.accesses ++ [a], portValue t ++ r.reads, r.failed⟩
      | .fault f => .fault f
      | .refused f => .refused f
    | none =>
      if requireMet r.reads then .next { r with program := rest }
      else .next { r with program := [], failed := true }

/-- A move of the host or of its environment. -/
def takeTurn (turn : Turn) (r : HostRun) : Host.Outcome HostRun Fault Refusal :=
  match turn with
  | .host => hostTurn r
  | .env e =>
    match step { r.machine with pending := [e] } with
    | .next t => .next { r with machine := t }
    | .fault f => .fault f
    | .refused f => .refused f

/-- Turn after turn. -/
def runTurns : List Turn → HostRun → Host.Outcome HostRun Fault Refusal
  | [], r => .next r
  | turn :: rest, r =>
    match takeTurn turn r with
    | .next u => runTurns rest u
    | .fault f => .fault f
    | .refused f => .refused f

/-- The turns in which only the host and the engine move. -/
def hostAndEngine (turns : List Turn) : Bool :=
  turns.all (fun turn => decide (turn = .host) || decide (turn = .env .engine))

/-- The engine, then the host, `n` times over. -/
def alternating : Nat → List Turn
  | 0 => []
  | n + 1 => .env .engine :: .host :: alternating n

end Sys2Proof.Machine
end

