-- ==== Sys2Proof/Machine/Lanes.lean ====
section
/-! DEFINITION. The probe lanes (42_probe_derivation.md R140): the same probes served `P` at a time.
The machine runs the sequential loop, as R140 lets a model do (log 13); this is the other evaluation. -/

namespace Sys2Proof.Machine

/-- The index of probe `i` by the closed form (42_probe_derivation.md R135). -/
def laneProbe (h : DWord) (m : Word) (i : Nat) : Word :=
  reduce (highHalf h + BitVec.ofNat 32 i * lowHalf h) m

/-- The probes served in lane-step `st`: `i = st*P .. st*P + P - 1`, those with `i < k`
(42_probe_derivation.md R140). -/
def laneStep (P : Nat) (h : DWord) (m : Word) (k st : Nat) : List Word :=
  (((List.range P).map (fun lane => st * P + lane)).filter (fun i => decide (i < k))).map (laneProbe h m)

/-- All `ceil(k / P)` lane-steps of a command (42_probe_derivation.md R140). -/
def laneProbes (P : Nat) (h : DWord) (m : Word) (k : Nat) : List Word :=
  (List.range (ceilDiv k P)).flatMap (laneStep P h m k)

end Sys2Proof.Machine
end

