-- ==== Sys2Proof/Safety.lean ====
section
/-! DEFINITION. The terms claims are stated in: the invariant of every reachable state, what it is for a
filter to hold a key, and what the unspecified reset values may not show. -/

namespace Sys2Proof.Machine

/-- What holds of every state a run from reset reaches, at any legal parameters. -/
structure Inv (s : State) : Prop where
  /-- the parameters are legal (00_scope.md R8) -/
  params_legal : s.params.legal = true
  /-- the array keeps its canonical form (10_state.md R34) -/
  memory_wf : Memory.wf s.params.wordWidth.toNat s.params.maxWords.toNat s.bits = true
  /-- no filter: the record reads 0 (10_state.md R21 to R24) -/
  empty_record : s.phase = .empty → s.flt.m = 0 ∧ s.flt.k = 0 ∧ s.flt.wc = 0
  /-- a filter: its record is legal (10_state.md R31) -/
  record_legal : s.phase ≠ .empty →
    1 ≤ s.flt.m.toNat ∧ 1 ≤ s.flt.k.toNat ∧ s.flt.k.toNat ≤ s.params.kMax.toNat ∧
      s.flt.wc.toNat = ceilDiv s.flt.m.toNat s.params.wordWidth.toNat ∧
      s.flt.wc.toNat ≤ s.params.maxWords.toNat
  /-- a filter: every word in use has a value (41_lifecycle.md R113) -/
  words_present : s.phase ≠ .empty → ∀ j < s.flt.wc.toNat, (memRead s.bits j).isSome = true
  /-- a filter: the slack bits are 0 (10_state.md R35 (c)) -/
  slack_zero : s.phase ≠ .empty →
    ∀ t < s.flt.wc.toNat * s.params.wordWidth.toNat, s.flt.m.toNat ≤ t →
      bitAt s.params.wordWidth.toNat s.bits t = some false
  /-- `BUSY` = 1 goes with `DONE` = 0 (10_state.md R41) -/
  busy_not_done : s.busy = true → s.done = false
  /-- `HIT` = 1 is the answer of an accepted `TEST` (10_state.md R15) -/
  hit_ready : s.hit = true → s.phase = .ready ∧ s.err = .none

/-- The current filter holds `key`: every bit of its probe sequence is 1 (44_test.md R161). -/
def Contains (s : State) (key : DWord) : Prop :=
  ∀ idx ∈ probes key s.flt, bitAt s.params.wordWidth.toNat s.bits idx.toNat = some true

/-- The bits of the current filter are all 0 (41_lifecycle.md R113). -/
def NothingSet (s : State) : Prop :=
  ∀ t < s.flt.m.toNat, bitAt s.params.wordWidth.toNat s.bits t = some false

/-- Two states that differ at most in what the spec leaves unspecified (10_state.md R37, 41_lifecycle.md
R113): the seed and the array while there is no filter, the words not in use, the latch while idle. -/
def SameButUnspecified (s t : State) : Prop :=
  t = { s with
        flt := ⟨s.flt.m, s.flt.k, s.flt.wc, t.flt.seed⟩
        bits := t.bits
        cmdLatch := t.cmdLatch } ∧
    (s.phase ≠ .empty →
      s.flt.seed = t.flt.seed ∧ ∀ j < s.flt.wc.toNat, memRead s.bits j = memRead t.bits j) ∧
    (s.busy = true → s.cmdLatch = t.cmdLatch)

/-- The engine is next: its turn is the head of `pending`, or nothing is pending; `rest` stays
pending (log 7). -/
def EngineNext (s : State) (rest : List Event) : Prop :=
  (s.pending = [] ∧ rest = []) ∨ s.pending = .engine :: rest

/-- The next step is a completion: a command is in flight and the engine is next (30_encoding.md R76). -/
def isCompletion (s : State) : Bool :=
  match s.pending with
  | [] => s.busy
  | .engine :: _ => s.busy
  | .access _ :: _ => false
  | .rst :: _ => false

/-- The next event is `rst` (70_reset_and_hazards.md R210). -/
def takesReset (s : State) : Bool :=
  match s.pending with
  | .rst :: _ => true
  | .access _ :: _ => false
  | .engine :: _ => false
  | [] => false

/-- The next event is a well-formed write of `v` at `offset` that the port takes: no command is in
flight (10_state.md R12, R41). -/
def TakesWrite (s : State) (offset : Nat) (v : Word) : Prop :=
  s.busy = false ∧ ∃ rest, s.pending = Event.write offset v :: rest

/-- The next step is the completion of an `INIT` whose configuration is legal (41_lifecycle.md R110). -/
def acceptsInit (s : State) : Bool :=
  isCompletion s && decide (s.cmdLatch = encode .cmdInit) && stagedConfigLegal s

/-- The next step is the completion of a `SET` in `BUILD` (43_set.md R150). -/
def acceptsSet (s : State) : Bool :=
  isCompletion s && decide (s.cmdLatch = encode .cmdSet) && decide (s.phase = .build)

/-- The state with another key in `KEY` (30_encoding.md R79, `key v64`). -/
def State.withKey (s : State) (key : DWord) : State :=
  { s with keyHi := highHalf key, keyLo := lowHalf key }

/-- `SET` for each of these keys in turn (40_config_sizing.md R100, step 6). -/
def insertAll : List DWord → State → Result
  | [], s => .next s
  | key :: rest, s =>
    match exec .cmdSet (s.withKey key) with
    | .next t => insertAll rest t
    | .fault r => .fault r
    | .refused r => .refused r

end Sys2Proof.Machine
end

