-- ==== Sys2Proof/Certificates/Slice0/Obligations.lean ====
section
/-! DEFINITION. The statements for the provers. Each docstring names the rule of spec/ it formalises. -/

open Sys2Proof Sys2Proof.Machine

/-! ### Command words and the step -/

/-- 30_encoding.md R72, R73 with the byte order of 20_memory.md R51: the decoder reads command `i` from a
byte sequence exactly when it begins with the four bytes of `i`'s word. -/
def Obligations.DecodeReadsExactlyTheEncodedCommands : Prop :=
  ∀ (bs rest : List Byte) (i : Instr), decode bs = .ok (i, rest) ↔ bs = encodeBytes i ++ rest

/-- The words of 30_encoding.md R72, byte by byte, and the illegal words of 60_exceptions.md R182. -/
def Obligations.WrittenOutCommandWordsDecode : Prop :=
  decode [0x01, 0x00, 0x00, 0x00] = .ok (.cmdInit, []) ∧
  decode [0x02, 0x00, 0x00, 0x00] = .ok (.cmdSet, []) ∧
  decode [0x03, 0x00, 0x00, 0x00] = .ok (.cmdSeal, []) ∧
  decode [0x04, 0x00, 0x00, 0x00] = .ok (.cmdTest, []) ∧
  decodeWord 0x00000000 = .error (.unknownOpcode 0x00) ∧
  decodeWord 0x00000005 = .error (.unknownOpcode 0x05) ∧
  decodeWord 0x00000102 = .error .zeroFieldSet ∧
  decodeWord 0xFFFFFFFF = .error .zeroFieldSet

/-- 30_encoding.md R76: with a command in flight and the engine next, a step is the command in the
latch, run on the state whose pending events are the remaining ones. -/
def Obligations.StepRunsTheDecodedCommand : Prop :=
  ∀ (s : State) (rest : List Event) (i : Instr), EngineNext s rest → s.busy = true →
    decodeWord s.cmdLatch = .ok i → step s = exec i { s with pending := rest }

/-- 60_exceptions.md R182: a word with `c[31:8] != 0` or `c[7:0]` outside 1 to 4 completes refused with
`E_ILLEGAL`, in every phase and configuration and for every key; no other word does. -/
def Obligations.IllegalWordsCompleteRefused : Prop :=
  ∀ (s : State) (rest : List Event), EngineNext s rest → s.busy = true →
    ((s.cmdLatch.extractLsb' 8 24 ≠ 0 ∨ (s.cmdLatch.extractLsb' 0 8).toNat < 1 ∨
        4 < (s.cmdLatch.extractLsb' 0 8).toNat) →
      step s = .next { s with pending := rest, err := .illegal, hit := false, busy := false, done := true }) ∧
    ((s.cmdLatch.extractLsb' 8 24 = 0 ∧ 1 ≤ (s.cmdLatch.extractLsb' 0 8).toNat ∧
        (s.cmdLatch.extractLsb' 0 8).toNat ≤ 4) →
      ∀ t, step s = .next t → t.err ≠ .illegal)

/-- 30_encoding.md R77: the decode check, then the phase check of `SET`, `SEAL`, `TEST`, then the
configuration check of `INIT`; exactly one code is reported. -/
def Obligations.ChecksComeInOrder : Prop :=
  ∀ (s t : State) (rest : List Event), EngineNext s rest → s.busy = true → step s = .next t →
    t.err =
      if s.cmdLatch = 0x00000001 then
        (if 1 ≤ s.cfgBitCount.toNat ∧ 1 ≤ s.cfgProbeCount.toNat ∧
            s.cfgProbeCount.toNat ≤ s.params.kMax.toNat ∧
            (s.cfgBitCount.toNat + s.params.wordWidth.toNat - 1) / s.params.wordWidth.toNat ≤
              s.params.maxWords.toNat
          then .none else .cfg)
      else if s.cmdLatch = 0x00000002 ∨ s.cmdLatch = 0x00000003 then
        (if s.phase = .build then .none else .phase)
      else if s.cmdLatch = 0x00000004 then (if s.phase = .ready then .none else .phase)
      else .illegal

/-- 30_encoding.md R75: a write of `c` to `CMD` while not busy latches the word, sets `BUSY`, clears
`DONE` (so `irq` drops) and changes nothing else, whatever the word; while busy it is no issue. -/
def Obligations.WriteToCmdIssues : Prop :=
  ∀ (s : State) (c : Word) (rest : List Event), s.pending = Event.write 0x0C c :: rest →
    (s.busy = false →
      step s = .next { s with pending := rest, port := .written, cmdLatch := c, busy := true, done := false } ∧
      ∀ t, step s = .next t → irq t = false) ∧
    (s.busy = true → step s = .next { s with pending := rest, port := .written, busyViol := true })

/-- 60_exceptions.md R198: with no command in flight and no access, the BFC keeps all its state. -/
def Obligations.IdleKeepsEverything : Prop :=
  ∀ (s : State) (rest : List Event), EngineNext s rest → s.busy = false →
    step s = .next { s with pending := rest }

/-- 30_encoding.md R76, 20_memory.md R62: whatever the host does short of reset, a command in flight
completes after at most as many steps as there are pending events, with everything it works on as it
was. The bound by pending events is the model's schedule (log 7). -/
def Obligations.CommandInFlightCompletes : Prop :=
  ∀ s : State, Inv s → s.busy = true → Event.rst ∉ s.pending →
    ∃ n ≤ s.pending.length, ∃ u t, Host.Core.run core n s = .next u ∧ isCompletion u = true ∧
      u.cmdLatch = s.cmdLatch ∧ u.phase = s.phase ∧ u.flt = s.flt ∧ u.bits = s.bits ∧
      keyOperand u = keyOperand s ∧ u.cfgBitCount = s.cfgBitCount ∧ u.cfgProbeCount = s.cfgProbeCount ∧
      Host.Core.run core (n + 1) s = .next t ∧ t.busy = false ∧ t.done = true

/-! ### The register window -/

/-- 10_state.md R11: what each of the seventeen offsets reads. -/
def Obligations.WindowMapReads : Prop :=
  ∀ s : State,
    portRead s 0x00 = s.params.idValue ∧ portRead s 0x04 = ctrlWord s ∧ portRead s 0x08 = statusWord s ∧
    portRead s 0x0C = 0 ∧ portRead s 0x10 = s.cfgBitCount ∧ portRead s 0x14 = s.cfgProbeCount ∧
    portRead s 0x18 = s.keyLo ∧ portRead s 0x1C = s.keyHi ∧ portRead s 0x20 = s.flt.m ∧
    portRead s 0x24 = s.flt.k ∧ portRead s 0x28 = s.flt.wc ∧
    (portRead s 0x30 ++ portRead s 0x2C).toNat = s.flt.wc.toNat * s.params.wordWidth.toNat ∧
    portRead s 0x34 = s.params.wordWidth ∧ portRead s 0x38 = s.params.maxWords ∧
    portRead s 0x3C = s.params.kMax ∧ portRead s 0x40 = s.params.lanes

/-- 10_state.md R12, 20_memory.md R57: a well-formed read answers and changes no state of the BFC, busy
or not. -/
def Obligations.ReadsHaveNoSideEffect : Prop :=
  ∀ (s : State) (offset : Nat) (rest : List Event), offset % 4 = 0 → offset < 0x100 →
    s.pending = Event.read offset :: rest →
    step s = .next { s with pending := rest, port := .data (portRead s offset) }

/-- 10_state.md R13: reserved offsets read 0 and ignore writes; reserved bits of `CTRL` and `STATUS` read
0 and ignore writes. -/
def Obligations.ReservedReadsZeroIgnoresWrites : Prop :=
  (∀ (s : State) (offset : Nat), offset % 4 = 0 → 0x44 ≤ offset → offset < 0x100 →
    portRead s offset = 0 ∧
    ∀ (v : Word) (rest : List Event), s.busy = false → s.pending = Event.write offset v :: rest →
      step s = .next { s with pending := rest, port := .written }) ∧
  (∀ (s : State) (b : Nat), (1 ≤ b → (ctrlWord s).getLsbD b = false) ∧
    (b = 3 ∨ b = 6 ∨ b = 7 ∨ 13 ≤ b → (statusWord s).getLsbD b = false)) ∧
  (∀ (s : State) (v w : Word) (rest : List Event),
    (v.getLsbD 0 = w.getLsbD 0 →
      step { s with pending := Event.write 0x04 v :: rest } =
        step { s with pending := Event.write 0x04 w :: rest }) ∧
    (v.getLsbD 1 = w.getLsbD 1 → v.getLsbD 12 = w.getLsbD 12 →
      step { s with pending := Event.write 0x08 v :: rest } =
        step { s with pending := Event.write 0x08 w :: rest }))

/-- 10_state.md R15: where each field of `STATUS` reads, and the whole effect of a write to it. -/
def Obligations.StatusFieldsAndWriteOneToClear : Prop :=
  ∀ s : State,
    (statusWord s).getLsbD 0 = s.busy ∧ (statusWord s).getLsbD 1 = s.done ∧
    (statusWord s).getLsbD 2 = s.hit ∧ (statusWord s).getLsbD 12 = s.busyViol ∧
    (statusWord s).extractLsb' 4 2 = (match s.phase with | .empty => 0 | .build => 1 | .ready => 2) ∧
    (statusWord s).extractLsb' 8 4 =
      (match s.err with | .none => 0 | .illegal => 1 | .cfg => 2 | .phase => 3) ∧
    ∀ (v : Word) (rest : List Event), s.busy = false → s.pending = Event.write 0x08 v :: rest →
      step s = .next { s with pending := rest, port := .written,
                              done := s.done && !v.getLsbD 1, busyViol := s.busyViol && !v.getLsbD 12 }

/-- 40_config_sizing.md R99: the writes of the staging registers, not busy and busy, for every value; they
read back and leave the filter record alone. -/
def Obligations.StagingWrites : Prop :=
  ∀ (s : State) (v : Word) (rest : List Event),
    (s.pending = Event.write 0x10 v :: rest →
      (s.busy = false →
        step s = .next { s with pending := rest, port := .written, cfgBitCount := v } ∧
        ∀ t, step s = .next t → portRead t 0x10 = v ∧ portRead t 0x20 = portRead s 0x20) ∧
      (s.busy = true → step s = .next { s with pending := rest, port := .written, busyViol := true })) ∧
    (s.pending = Event.write 0x14 v :: rest →
      (s.busy = false →
        step s = .next { s with pending := rest, port := .written, cfgProbeCount := v } ∧
        ∀ t, step s = .next t → portRead t 0x14 = v ∧ portRead t 0x24 = portRead s 0x24) ∧
      (s.busy = true → step s = .next { s with pending := rest, port := .written, busyViol := true }))

/-- 10_state.md R14, R20: the writes of `KEY_LO`, `KEY_HI` and `CTRL` with no command in flight. -/
def Obligations.KeyAndControlWrites : Prop :=
  ∀ (s : State) (v : Word) (rest : List Event), s.busy = false →
    (s.pending = Event.write 0x18 v :: rest →
      step s = .next { s with pending := rest, port := .written, keyLo := v }) ∧
    (s.pending = Event.write 0x1C v :: rest →
      step s = .next { s with pending := rest, port := .written, keyHi := v }) ∧
    (s.pending = Event.write 0x04 v :: rest →
      step s = .next { s with pending := rest, port := .written, ie := v.getLsbD 0 })

/-- 70_reset_and_hazards.md R226, 10_state.md R12: a register written with `BUSY` = 0 reads back the new
value on the very next read. -/
def Obligations.WrittenValueReadsBackAtOnce : Prop :=
  ∀ (s : State) (r : Reg) (v : Word) (rest : List Event), s.busy = false →
    r = .ctrl ∨ r = .cfgBitCount ∨ r = .cfgProbeCount ∨ r = .keyLo ∨ r = .keyHi →
    s.pending = Event.write (regOffset r) v :: Event.read (regOffset r) :: rest →
    ∃ t, Host.Core.run core 2 s = .next t ∧
      t.port = .data (if r = .ctrl then v &&& 1 else v) ∧ t.pending = rest

/-- 10_state.md R12, R26: a write to a read-only register is ignored. -/
def Obligations.ReadOnlyRegistersIgnoreWrites : Prop :=
  ∀ (s : State) (r : Reg) (v : Word) (rest : List Event), s.busy = false →
    r = .id ∨ r = .fltBitCount ∨ r = .fltProbeCount ∨ r = .fltWordCount ∨ r = .fltCapacityLo ∨
      r = .fltCapacityHi ∨ r = .paramWordWidth ∨ r = .paramMaxWords ∨ r = .paramKMax ∨ r = .paramLanes →
    s.pending = Event.write (regOffset r) v :: rest →
    step s = .next { s with pending := rest, port := .written }

/-- 60_exceptions.md R187, 20_memory.md R52: an access that is not 32 bits wide at a multiple of 4 below
0x100 changes no state of the BFC and gets the bus error response; `badReads` is the model's own counter
of free read values (log 9). -/
def Obligations.MalformedAccessHasNoEffect : Prop :=
  ∀ (s : State) (a : Access) (rest : List Event), s.pending = .access a :: rest →
    a.width ≠ 32 ∨ a.offset % 4 ≠ 0 ∨ 0x100 ≤ a.offset →
    ∃ t, step s = .next t ∧ t = { s with pending := rest, port := t.port, badReads := t.badReads } ∧
      (a.kind = .read → ∃ v, t.port = .readError v) ∧
      (∀ v, a.kind = .write v → t.port = .writeError)

/-- 60_exceptions.md R188: a well-formed write to any offset while busy is dropped and sets `BUSY_VIOL`;
the flag is sticky, raises no interrupt, and the command in flight completes as if the write had not
happened. -/
def Obligations.WriteWhileBusyIsDroppedAndFlagged : Prop :=
  (∀ (s : State) (offset : Nat) (v : Word) (rest : List Event), s.busy = true → offset % 4 = 0 →
    offset < 0x100 → s.pending = Event.write offset v :: rest →
    step s = .next { s with pending := rest, port := .written, busyViol := true } ∧
    ∀ t, step s = .next t → irq t = irq s) ∧
  (∀ s t : State, step s = .next t → s.busyViol = true → t.busyViol = false →
    takesReset s = true ∨ ∃ v, TakesWrite s 0x08 v ∧ v.getLsbD 12 = true) ∧
  (∀ (s t : State) (q : List Event) (p : PortResponse), complete s = .next t →
    complete { s with busyViol := true, port := p, pending := q } =
      .next { t with busyViol := true, port := p, pending := q })

/-- 10_state.md R41, 70_reset_and_hazards.md R221: while a command is in flight every register but
`STATUS` reads as before the issue, `STATUS` shows `DONE` = 0 and keeps the other fields, and the filter
and the array are untouched. -/
def Obligations.BusyShowsTheStateBeforeTheCommand : Prop :=
  ∀ s t : State, Inv s → s.busy = true → step s = .next t → t.busy = true →
    (∀ r, r ≠ .status → readReg t r = readReg s r) ∧ t.done = false ∧ t.hit = s.hit ∧ t.err = s.err ∧
      t.phase = s.phase ∧ t.flt = s.flt ∧ t.bits = s.bits ∧ t.cmdLatch = s.cmdLatch

/-- 60_exceptions.md R190, 10_state.md R36: `DONE` is set by every completion and only so, cleared by a
write of bit 1 to `STATUS`, by an issue and by reset and only so; `irq` is `IE` and `DONE`. -/
def Obligations.DoneIsTheOnePendingBit : Prop :=
  ∀ s t : State, step s = .next t →
    (isCompletion s = true → t.done = true) ∧
    (s.done = false → t.done = true → isCompletion s = true) ∧
    (takesReset s = true → t.done = false) ∧
    (∀ c, TakesWrite s 0x0C c → t.done = false) ∧
    (∀ v, TakesWrite s 0x08 v → v.getLsbD 1 = true → t.done = false) ∧
    (s.done = true → t.done = false →
      takesReset s = true ∨ (∃ c, TakesWrite s 0x0C c) ∨ ∃ v, TakesWrite s 0x08 v ∧ v.getLsbD 1 = true) ∧
    irq t = (t.ie && t.done)

/-- 10_state.md R26, R39: no register shows the seed, the array or the latch, nor does `irq`. -/
def Obligations.HiddenStateIsInNoRegister : Prop :=
  ∀ (s : State) (seed : DWord) (mem : Memory) (c : Word),
    (∀ r, readReg { s with flt := ⟨s.flt.m, s.flt.k, s.flt.wc, seed⟩, bits := mem, cmdLatch := c } r =
      readReg s r) ∧
    irq { s with flt := ⟨s.flt.m, s.flt.k, s.flt.wc, seed⟩, bits := mem, cmdLatch := c } = irq s

/-- 10_state.md R25, and R16 for `ID`: the constant registers read the parameters, and no step changes
one of them, a reset included. -/
def Obligations.ParametersNeverChange : Prop :=
  ∀ s t : State, step s = .next t →
    t.params = s.params ∧ readReg t .id = s.params.idValue ∧
    readReg t .paramWordWidth = s.params.wordWidth ∧ readReg t .paramMaxWords = s.params.maxWords ∧
    readReg t .paramKMax = s.params.kMax ∧ readReg t .paramLanes = s.params.lanes

/-! ### The probe derivation -/

/-- 42_probe_derivation.md R132: multiply-high reduction, in range, not a modulo, with its examples. -/
def Obligations.ReduceIsMultiplyHigh : Prop :=
  ∀ a m : Word,
    (reduce a m).toNat = a.toNat * m.toNat / 2 ^ 32 ∧ a.toNat * m.toNat < 2 ^ 64 ∧
    (1 ≤ m.toNat → (reduce a m).toNat ≤ m.toNat - 1) ∧
    reduce 0xFFFFFFFF 24 = 23 ∧ (0xFFFFFFFF : Word) % 24 = 15 ∧ reduce 0 24 = 0 ∧
    reduce 0x80000000 24 = 12 ∧ reduce 0x0AAAAAAA 24 = 0 ∧ reduce 0x0AAAAAAB 24 = 1 ∧ reduce a 1 = 0

/-- 42_probe_derivation.md R137: the laws (a) to (f) of `reduce`. -/
def Obligations.LawsOfReduce : Prop :=
  ∀ m : Word, 1 ≤ m.toNat →
    (∀ a : Word, (reduce a m).toNat < m.toNat) ∧
    (∀ a a' : Word, a.toNat ≤ a'.toNat → (reduce a m).toNat ≤ (reduce a' m).toNat) ∧
    (∀ t < m.toNat, (reduce (BitVec.ofNat 32 ((t * 2 ^ 32 + m.toNat - 1) / m.toNat)) m).toNat = t) ∧
    (∀ t < m.toNat,
      ((Finset.range (2 ^ 32)).filter (fun x => (reduce (BitVec.ofNat 32 x) m).toNat = t)).card =
          2 ^ 32 / m.toNat ∨
      ((Finset.range (2 ^ 32)).filter (fun x => (reduce (BitVec.ofNat 32 x) m).toNat = t)).card =
          (2 ^ 32 + m.toNat - 1) / m.toNat) ∧
    (reduce 0 m).toNat = 0 ∧ (reduce 0xFFFFFFFF m).toNat = m.toNat - 1 ∧
    (∀ j ≤ 31, m.toNat = 2 ^ j → ∀ a : Word, (reduce a m).toNat = a.toNat / 2 ^ (32 - j))

/-- 42_probe_derivation.md R135, R130: a probe sequence has `k` indices, and index `i` is
`reduce((h[63:32] + i * h[31:0]) mod 2^32, m)`. -/
def Obligations.ProbesHaveTheClosedForm : Prop :=
  ∀ (h : DWord) (m : Word) (k : Nat),
    (probesOfHash h m k).length = k ∧
    ∀ i < k, ∃ idx, (probesOfHash h m k)[i]? = some idx ∧
      idx.toNat =
        ((h.extractLsb' 32 32).toNat + i * (h.extractLsb' 0 32).toNat) % 2 ^ 32 * m.toNat / 2 ^ 32

/-- 20_memory.md R54: no probe of a filter leaves its array, and none lands on a slack bit. -/
def Obligations.ProbesStayInTheArray : Prop :=
  ∀ (s : State) (key : DWord), Inv s → s.phase ≠ .empty → ∀ idx ∈ probes key s.flt,
    idx.toNat < s.flt.m.toNat ∧
    idx.toNat / s.params.wordWidth.toNat ≤ (s.flt.m.toNat - 1) / s.params.wordWidth.toNat ∧
    (s.flt.m.toNat - 1) / s.params.wordWidth.toNat = s.flt.wc.toNat - 1 ∧ 1 ≤ s.flt.wc.toNat ∧
    s.flt.wc.toNat - 1 < s.params.maxWords.toNat

/-- 42_probe_derivation.md R140: served `P` at a time by the closed form, the lane-steps make the same
probes as the loop, for every `P`. -/
def Obligations.LanesMakeTheSameProbes : Prop :=
  ∀ (P : Nat) (h : DWord) (m : Word) (k : Nat), 1 ≤ P → laneProbes P h m k = probesOfHash h m k

/-- 20_memory.md R56, R60 (e), 43_set.md R152 (f), 44_test.md R161: in whatever order the probes are
served, `SET` leaves the same array and `TEST` gives the same answer. -/
def Obligations.ProbeOrderIsUnobservable : Prop :=
  ∀ (W M : Nat) (mem : Memory) (xs ys : List Word), 1 ≤ W → Memory.wf W M mem = true → xs.Perm ys →
    setBits W mem xs = setBits W mem ys ∧
    ((∀ i ∈ xs, (bitAt W mem i.toNat).isSome = true) → testBits W mem xs = testBits W mem ys)

/-- 20_memory.md R53, 92_eei_decisions.md D2: `HIT` does not depend on the word width. `INIT`'s zero fill
for one `m` makes arrays of two word widths agree on every index below `m`; `SET` of the same indices
keeps two arrays in agreement; and where they agree on the probed bits `TEST` gives the same answer. -/
def Obligations.HitDoesNotDependOnTheWordWidth : Prop :=
  ∀ (W W' : Nat) (mem mem' : Memory), 1 ≤ W → 1 ≤ W' →
    (∀ m, ∀ i < m, bitAt W (zeroWords (ceilDiv m W) mem) i = bitAt W' (zeroWords (ceilDiv m W') mem') i) ∧
    ∀ idxs : List Word,
      (∀ out out', setBits W mem idxs = some out → setBits W' mem' idxs = some out' →
        ∀ i, bitAt W mem i = bitAt W' mem' i → bitAt W out i = bitAt W' out' i) ∧
      ((∀ i ∈ idxs, bitAt W mem i.toNat = bitAt W' mem' i.toNat) →
        testBits W mem idxs = testBits W' mem' idxs)

/-- 20_memory.md R53, R56, 00_scope.md 6.2: reading after `MemWrite` and after `MemOr`, at the word
written and at every other. -/
def Obligations.ArrayReadsAfterWrites : Prop :=
  ∀ (mem : Memory) (j v : Nat),
    (∀ i, memRead (memWrite mem j v) i = if i = j then some v else memRead mem i) ∧
    (∀ w, memRead mem j = some w → ∃ mem', memOr mem j v = some mem' ∧
      ∃ x, memRead mem' j = some x ∧
        (∀ b, x.testBit b = (w.testBit b || v.testBit b)) ∧ ∀ i, i ≠ j → memRead mem' i = memRead mem i)

/-! ### The commands -/

/-- 41_lifecycle.md R110, R111: `INIT`, accepted exactly for a legal staging configuration, in every
phase; its whole effect, and the refusal with no effect but `STATUS`. The model's own in it: that the
latch keeps its word (log 18) and that draws are numbered by a counter (log 3). -/
def Obligations.InitCreatesTheFilterOrRefuses : Prop :=
  ∀ s : State,
    ((1 ≤ s.cfgBitCount.toNat ∧ 1 ≤ s.cfgProbeCount.toNat ∧
        s.cfgProbeCount.toNat ≤ s.params.kMax.toNat ∧
        (s.cfgBitCount.toNat + s.params.wordWidth.toNat - 1) / s.params.wordWidth.toNat ≤
          s.params.maxWords.toNat) →
      ∃ t, exec .cmdInit s = .next t ∧
        t = { s with flt := t.flt, bits := t.bits, draws := s.draws + 1, phase := .build,
                     err := .none, hit := false, busy := false, done := true } ∧
        t.flt.m = s.cfgBitCount ∧ t.flt.k = s.cfgProbeCount ∧
        t.flt.wc.toNat =
          (s.cfgBitCount.toNat + s.params.wordWidth.toNat - 1) / s.params.wordWidth.toNat ∧
        t.flt.seed = Config.seedDraw s.draws ∧
        (∀ j < t.flt.wc.toNat, memRead t.bits j = some 0) ∧
        ∀ j, t.flt.wc.toNat ≤ j → memRead t.bits j = memRead s.bits j) ∧
    (¬ (1 ≤ s.cfgBitCount.toNat ∧ 1 ≤ s.cfgProbeCount.toNat ∧
        s.cfgProbeCount.toNat ≤ s.params.kMax.toNat ∧
        (s.cfgBitCount.toNat + s.params.wordWidth.toNat - 1) / s.params.wordWidth.toNat ≤
          s.params.maxWords.toNat) →
      exec .cmdInit s = .next { s with err := .cfg, hit := false, busy := false, done := true })

/-- 41_lifecycle.md R115, 30_encoding.md R76: `SEAL`, its whole effect in `BUILD`, and refused in `EMPTY`
and in `READY`. The model's own in it: that the latch keeps its word (log 18). -/
def Obligations.SealEndsConstruction : Prop :=
  ∀ s : State,
    (s.phase = .build →
      exec .cmdSeal s = .next { s with phase := .ready, err := .none, hit := false, busy := false,
                                       done := true }) ∧
    (s.phase ≠ .build →
      exec .cmdSeal s = .next { s with err := .phase, hit := false, busy := false, done := true })

/-- 43_set.md R151: an accepted `SET` sets exactly the bits of the probe sequence of `KEY`; the words no
probe lies in, and all other state but `STATUS`, stay. -/
def Obligations.SetMarksExactlyTheProbedBits : Prop :=
  ∀ s : State, Inv s → s.phase = .build →
    ∃ t, exec .cmdSet s = .next t ∧
      t = { s with bits := t.bits, err := .none, hit := false, busy := false, done := true } ∧
      (∀ i < s.flt.wc.toNat * s.params.wordWidth.toNat,
        ((∃ idx ∈ probes (s.keyHi ++ s.keyLo) s.flt, idx.toNat = i) →
          bitAt s.params.wordWidth.toNat t.bits i = some true) ∧
        ((¬ ∃ idx ∈ probes (s.keyHi ++ s.keyLo) s.flt, idx.toNat = i) →
          bitAt s.params.wordWidth.toNat t.bits i = bitAt s.params.wordWidth.toNat s.bits i)) ∧
      ∀ j, (∀ idx ∈ probes (s.keyHi ++ s.keyLo) s.flt, idx.toNat / s.params.wordWidth.toNat ≠ j) →
        memRead t.bits j = memRead s.bits j

/-- 44_test.md R161: an accepted `TEST` answers the AND of the probed bits of `KEY`, and writes nothing
but `STATUS`. -/
def Obligations.TestAnswersTheAndOfTheProbedBits : Prop :=
  ∀ s : State, Inv s → s.phase = .ready →
    ∃ t, exec .cmdTest s = .next t ∧
      t = { s with hit := t.hit, err := .none, busy := false, done := true } ∧
      (t.hit = true ↔ ∀ idx ∈ probes (s.keyHi ++ s.keyLo) s.flt,
        bitAt s.params.wordWidth.toNat s.bits idx.toNat = some true)

/-- 41_lifecycle.md R116: the phase table. -/
def Obligations.PhaseTableIsComplete : Prop :=
  ∀ s : State, Inv s →
    (∃ t, exec .cmdInit s = .next t ∧
      ((t.err = .none ∧ t.phase = .build) ∨
        t = { s with err := .cfg, hit := false, busy := false, done := true })) ∧
    (s.phase = .build → ∃ t, exec .cmdSet s = .next t ∧ t.err = .none ∧ t.phase = .build) ∧
    (s.phase = .build → ∃ t, exec .cmdSeal s = .next t ∧ t.err = .none ∧ t.phase = .ready) ∧
    (s.phase = .ready → ∃ t, exec .cmdTest s = .next t ∧ t.err = .none ∧ t.phase = .ready) ∧
    (s.phase ≠ .build →
      exec .cmdSet s = .next { s with err := .phase, hit := false, busy := false, done := true } ∧
      exec .cmdSeal s = .next { s with err := .phase, hit := false, busy := false, done := true }) ∧
    (s.phase ≠ .ready →
      exec .cmdTest s = .next { s with err := .phase, hit := false, busy := false, done := true }) ∧
    ∀ rest, EngineNext s rest → s.busy = true → (∀ i, decodeWord s.cmdLatch ≠ .ok i) →
      step s = .next { s with pending := rest, err := .illegal, hit := false, busy := false, done := true }

/-- 60_exceptions.md R184, 41_lifecycle.md R112: a refused command changes `ERR`, `HIT`, `BUSY`, `DONE`
and nothing else. -/
def Obligations.RefusalsArePrecise : Prop :=
  ∀ s t : State, complete s = .next t → t.err ≠ .none →
    t = { s with err := t.err, hit := false, busy := false, done := true }

/-- 10_state.md R20, R26, R76: the frame of all four commands. None writes a register of the host, the
latch, `BUSY_VIOL`, or what is outside the BFC; every completion clears `BUSY` and sets `DONE`, and only
`TEST` sets `HIT`. -/
def Obligations.CommandsLeaveTheHostsRegisters : Prop :=
  ∀ (i : Instr) (s t : State), exec i s = .next t →
    t.params = s.params ∧ t.ie = s.ie ∧ t.busyViol = s.busyViol ∧ t.cfgBitCount = s.cfgBitCount ∧
    t.cfgProbeCount = s.cfgProbeCount ∧ t.keyLo = s.keyLo ∧ t.keyHi = s.keyHi ∧
    t.cmdLatch = s.cmdLatch ∧ t.pending = s.pending ∧ t.port = s.port ∧ t.resets = s.resets ∧
    t.badReads = s.badReads ∧ t.busy = false ∧ t.done = true ∧
    (t.hit = true → i = .cmdTest ∧ t.err = .none) ∧
    (i = .cmdSet ∨ i = .cmdSeal ∨ i = .cmdTest → t.flt = s.flt ∧ t.draws = s.draws) ∧
    (i = .cmdSeal ∨ i = .cmdTest → ∀ j, memRead t.bits j = memRead s.bits j)

/-- 43_set.md R152 (g), 44_test.md R164 (e), 70_reset_and_hazards.md R223: `SET`, `SEAL` and `TEST` never
read the staging registers. -/
def Obligations.StagingDoesNotTouchTheFilter : Prop :=
  ∀ (i : Instr) (s t : State) (m k : Word), i = .cmdSet ∨ i = .cmdSeal ∨ i = .cmdTest →
    exec i s = .next t →
    exec i { s with cfgBitCount := m, cfgProbeCount := k } =
      .next { t with cfgBitCount := m, cfgProbeCount := k }

/-- 43_set.md R152 (b), 20_memory.md R57: the second `SET` of a key changes no bit. -/
def Obligations.SettingAKeyTwiceChangesNothing : Prop :=
  ∀ s : State, Inv s → s.phase = .build →
    ∃ t u, exec .cmdSet s = .next t ∧ exec .cmdSet t = .next u ∧ u = t

/-- 40_config_sizing.md R101: the order in which keys are inserted does not change the filter, a key
inserted again changes nothing, and the bits after it are the old ones and the probed ones. -/
def Obligations.InsertionOrderIsUnobservable : Prop :=
  ∀ (s : State) (keys keys' : List DWord), Inv s → s.phase = .build → keys.Perm keys' →
    ∃ t t', insertAll keys s = .next t ∧ insertAll keys' s = .next t' ∧
      t.bits = t'.bits ∧ t.flt = s.flt ∧ t'.flt = s.flt ∧ t.phase = .build ∧
      (∀ i, bitAt s.params.wordWidth.toNat t.bits i = some true ↔
        bitAt s.params.wordWidth.toNat s.bits i = some true ∨
          ∃ key ∈ keys, ∃ idx ∈ probes key s.flt, idx.toNat = i) ∧
      ∀ key ∈ keys, ∃ u, exec .cmdSet (t.withKey key) = .next u ∧ u.bits = t.bits

/-! ### Invariants and whole-machine rules -/

/-- The state after reset meets the invariant (10_state.md R37, with the values of log 4). -/
def Obligations.ResetMeetsTheInvariant : Prop := Inv State.reset

/-- 10_state.md R31, R35 (c), R41, R15: every step keeps the invariant. -/
def Obligations.StepKeepsTheInvariant : Prop :=
  ∀ s t : State, Inv s → step s = .next t → Inv t

/-- 60_exceptions.md R180, 20_memory.md R54: nothing that is accepted can fail, so no state that meets the
invariant stops. -/
def Obligations.NothingStopsTheMachine : Prop :=
  ∀ s : State, Inv s → (∃ t, step s = .next t) ∧ ∀ i, ∃ t, exec i s = .next t

/-- 41_lifecycle.md R117: (a) nothing of the filter changes within `READY`; (b) the record changes only
at an accepted `INIT`; (c) the moves of `PHASE`. (Reset, R210, is named where the rule leaves it out.) -/
def Obligations.FilterLifecycle : Prop :=
  ∀ s t : State, step s = .next t →
    (s.phase = .ready → t.phase = .ready → t.flt = s.flt ∧ t.bits = s.bits) ∧
    (takesReset s = false → acceptsInit s = false → t.flt = s.flt) ∧
    (takesReset s = false → t.phase ≠ s.phase →
      (s.phase = .empty ∧ t.phase = .build) ∨ (s.phase = .build ∧ t.phase = .ready) ∨
        (s.phase = .ready ∧ t.phase = .build)) ∧
    (t.phase = .empty → s.phase = .empty ∨ takesReset s = true)

/-- 10_state.md R35: (a) no bit is cleared between two accepted `INIT`s; (b) no bit changes in `READY`;
(c) the slack bits are 0, and no probe reads one. -/
def Obligations.ArrayOnlyGrows : Prop :=
  ∀ s t : State, Inv s → step s = .next t →
    (takesReset s = false → acceptsInit s = false →
      ∀ i, bitAt s.params.wordWidth.toNat s.bits i = some true →
        bitAt t.params.wordWidth.toNat t.bits i = some true) ∧
    (s.phase = .ready → t.phase = .ready → ∀ j, memRead t.bits j = memRead s.bits j) ∧
    (t.phase ≠ .empty →
      (∀ i, t.flt.m.toNat ≤ i → i < t.flt.wc.toNat * t.params.wordWidth.toNat →
        bitAt t.params.wordWidth.toNat t.bits i = some false) ∧
      ∀ key, ∀ idx ∈ probes key t.flt, idx.toNat < t.flt.m.toNat)

/-- 10_state.md R32, 41_lifecycle.md R114: exactly one draw per accepted `INIT` and none otherwise, and the
seed is that draw; only reset changes it beside. -/
def Obligations.OneSeedDrawPerAcceptedInit : Prop :=
  ∀ s t : State, step s = .next t →
    (acceptsInit s = true → t.draws = s.draws + 1 ∧ t.flt.seed = Config.seedDraw s.draws) ∧
    (acceptsInit s = false → t.draws = s.draws) ∧
    (acceptsInit s = false → takesReset s = false → t.flt.seed = s.flt.seed)

/-- 45_capacity.md R171: the relations between the read-back registers. -/
def Obligations.ReadBackRelations : Prop :=
  ∀ s : State, Inv s →
    (s.phase ≠ .empty →
      (portRead s 0x28).toNat =
        ((portRead s 0x20).toNat + s.params.wordWidth.toNat - 1) / s.params.wordWidth.toNat ∧
      (portRead s 0x30 ++ portRead s 0x2C).toNat = (portRead s 0x28).toNat * s.params.wordWidth.toNat ∧
      (portRead s 0x20).toNat ≤ (portRead s 0x30 ++ portRead s 0x2C).toNat ∧
      (portRead s 0x30 ++ portRead s 0x2C).toNat < (portRead s 0x20).toNat + s.params.wordWidth.toNat ∧
      1 ≤ (portRead s 0x24).toNat ∧ (portRead s 0x24).toNat ≤ s.params.kMax.toNat) ∧
    (s.phase = .empty →
      portRead s 0x20 = 0 ∧ portRead s 0x24 = 0 ∧ portRead s 0x28 = 0 ∧ portRead s 0x2C = 0 ∧
        portRead s 0x30 = 0) ∧
    ∀ t, step s = .next t → takesReset s = false → acceptsInit s = false →
      portRead t 0x20 = portRead s 0x20 ∧ portRead t 0x24 = portRead s 0x24 ∧
      portRead t 0x28 = portRead s 0x28 ∧ portRead t 0x2C = portRead s 0x2C ∧
      portRead t 0x30 = portRead s 0x30

/-- 70_reset_and_hazards.md R210, 10_state.md R37: the reset event, from any state, a command in flight included, and no
other way to reach `EMPTY`. The unspecified array has no value (log 5). -/
def Obligations.ResetEvent : Prop :=
  (∀ (s : State) (rest : List Event), s.pending = .rst :: rest →
    ∃ t, step s = .next t ∧ t.pending = rest ∧ t.phase = .empty ∧ t.busy = false ∧ irq t = false ∧
      t.flt.m = 0 ∧ t.flt.k = 0 ∧ t.flt.wc = 0 ∧ (∀ j, memRead t.bits j = none) ∧
      (∀ r, r = .id ∨ r = .paramWordWidth ∨ r = .paramMaxWords ∨ r = .paramKMax ∨ r = .paramLanes →
        readReg t r = readReg s r) ∧
      ∀ r, r ≠ .id → r ≠ .paramWordWidth → r ≠ .paramMaxWords → r ≠ .paramKMax → r ≠ .paramLanes →
        readReg t r = 0) ∧
  ∀ s t : State, step s = .next t → t.phase = .empty → s.phase = .empty ∨ takesReset s = true

/-- 10_state.md R11, column "reset", and R37 at the default parameters of 00_scope.md R8. -/
def Obligations.RegistersAtReset : Prop :=
  readReg State.reset .id = 0x42464331 ∧ readReg State.reset .ctrl = 0 ∧
  readReg State.reset .status = 0 ∧ readReg State.reset .cmd = 0 ∧
  readReg State.reset .cfgBitCount = 0 ∧ readReg State.reset .cfgProbeCount = 0 ∧
  readReg State.reset .keyLo = 0 ∧ readReg State.reset .keyHi = 0 ∧
  readReg State.reset .fltBitCount = 0 ∧ readReg State.reset .fltProbeCount = 0 ∧
  readReg State.reset .fltWordCount = 0 ∧ readReg State.reset .fltCapacityLo = 0 ∧
  readReg State.reset .fltCapacityHi = 0 ∧ readReg State.reset .paramWordWidth = 64 ∧
  readReg State.reset .paramMaxWords = 131072 ∧ readReg State.reset .paramKMax = 255 ∧
  readReg State.reset .paramLanes = 4 ∧ State.reset.phase = .empty ∧ irq State.reset = false

/-- 10_state.md R37, 70_reset_and_hazards.md R211, R213, 41_lifecycle.md R113: two states that differ only
in what the spec leaves unspecified step to two such states and show the host the same registers and the
same `irq`. -/
def Obligations.UnspecifiedValuesAreUnobservable : Prop :=
  ∀ s t s' : State, Inv s → Inv t → SameButUnspecified s t → step s = .next s' →
    ∃ t', step t = .next t' ∧ SameButUnspecified s' t' ∧ (∀ r, readReg s' r = readReg t' r) ∧
      irq s' = irq t'

/-- 44_test.md R162: no false negatives. Once a `SET` of a key was accepted, every accepted `TEST` of that
key before the next accepted `INIT` (which `draws` counts) answers `HIT` = 1, whatever happens between. -/
def Obligations.NoFalseNegatives : Prop :=
  ∀ (s s' t : State) (n : Nat), Inv s → s.phase = .build → exec .cmdSet s = .next s' →
    Host.Core.run core n s' = .next t → t.draws = s'.draws → t.phase = .ready →
    keyOperand t = keyOperand s →
    ∃ u, exec .cmdTest t = .next u ∧ u.err = .none ∧ u.hit = true

/-- 44_test.md R163 (a), 40_config_sizing.md R102: while no bit is set and no `SET` is accepted, every
accepted `TEST` answers `HIT` = 0, for every key, hash and seed. -/
def Obligations.EmptyFilterNeverMatches : Prop :=
  ∀ (s t : State) (n : Nat), Inv s → s.phase ≠ .empty → NothingSet s →
    (∀ k < n, ∀ u, Host.Core.run core k s = .next u → acceptsSet u = false) →
    Host.Core.run core n s = .next t → t.draws = s.draws → t.phase = .ready →
    ∃ u, exec .cmdTest t = .next u ∧ u.err = .none ∧ u.hit = false

/-- 44_test.md R163 (b), 20_memory.md R57: two accepted `TEST`s of one key with no accepted `INIT` between
give the same `HIT`. -/
def Obligations.TestAnswersRepeat : Prop :=
  ∀ (s t : State) (n : Nat), Inv s → s.phase = .ready → Host.Core.run core n s = .next t →
    t.draws = s.draws → t.phase = .ready → keyOperand t = keyOperand s →
    ∃ u v, exec .cmdTest s = .next u ∧ exec .cmdTest t = .next v ∧ u.err = .none ∧ v.err = .none ∧
      u.hit = v.hit

/-! ### The host's part -/

/-- 40_config_sizing.md R90 to R96, R98: `Size` over the real numbers has exactly one result for
`bitsPerKey > 0` and none otherwise; what the model computes for a rational `bitsPerKey` is that result,
and it is computed for every `m` a register can hold (log 16). -/
def Obligations.SizingAgreesWithTheRealFormula : Prop :=
  ∀ W count : Nat,
    (∀ b : ℝ, (0 < b → ∃! z, Size W count b z) ∧ ∀ z, Size W count b z → 0 < b) ∧
    ∀ b : ℚ, (∀ z, sizeFilter W count b = some z → Size W count (b : ℝ) z) ∧
      ∀ z, Size W count (b : ℝ) z → z.m < 2 ^ 32 → sizeFilter W count b = some z

/-- 40_config_sizing.md R103: capacity against the budget, for every real `bitsPerKey`, with the example in
which it falls short (`bitsPerKey` 6.44). -/
def Obligations.CapacityAgainstTheBudget : Prop :=
  Size 64 10 (644 / 100) ⟨10, 64, 4, 1⟩ ∧
  ∀ (W count : Nat) (bitsPerKey : ℝ) (z : Sizing), 1 ≤ W → Size W count bitsPerKey z →
    (∀ (more : ℝ) (z' : Sizing), bitsPerKey ≤ more → Size W count more z' →
      z.m ≤ z'.m ∧ z.wc ≤ z'.wc ∧ z.wc * W ≤ z'.wc * W) ∧
    z.m ≤ z.wc * W ∧ (z.n : ℝ) * bitsPerKey - 1 / 2 < z.m ∧
    ((z.wc * W : ℝ) < z.n * bitsPerKey ↔
      W ∣ z.m ∧ (z.m : ℝ) < z.n * bitsPerKey ∧ (z.n : ℝ) * bitsPerKey < z.m + 1 / 2) ∧
    (¬ W ∣ z.m → z.m + 1 ≤ z.wc * W ∧ (z.n : ℝ) * bitsPerKey < z.m + 1) ∧
    (∀ b : ℕ, (z.n : ℝ) * bitsPerKey = b → z.m = b)

/-- 40_config_sizing.md R97 with 41_lifecycle.md R111: a filter the host finds feasible is accepted by
`INIT` with exactly that record. -/
def Obligations.FeasibleSizingIsAccepted : Prop :=
  ∀ (s : State) (count : Nat) (bitsPerKey : ℝ) (z : Sizing),
    Size s.params.wordWidth.toNat count bitsPerKey z → z.feasible s.params = true →
    s.cfgBitCount = BitVec.ofNat 32 z.m → s.cfgProbeCount = BitVec.ofNat 32 z.k →
    ∃ t, exec .cmdInit s = .next t ∧ t.err = .none ∧ t.flt.m.toNat = z.m ∧ t.flt.k.toNat = z.k ∧
      t.flt.wc.toNat = z.wc

/-- 30_encoding.md R78, the row `wait`: the host reads `STATUS`, and it goes on exactly when the value it
read has `BUSY` = 0. Running it as turns is the model's (log 17). -/
def Obligations.WaitReadsStatusUntilNotBusy : Prop :=
  ∀ (r : HostRun) (rest : List HostOp), r.program = .wait :: rest →
    ∃ t, hostTurn r = .next t ∧
      t.machine = { r.machine with pending := [], port := .data (statusWord r.machine) } ∧
      t.accesses = r.accesses ++ [⟨.read, 32, 0x08⟩] ∧ t.reads = statusWord r.machine :: r.reads ∧
      t.failed = r.failed ∧ t.program = if r.machine.busy then .wait :: rest else rest

/-- 30_encoding.md R78: the writes a host makes are the encoding of its program, in order, whatever its
environment does; part of the way through, what it has still to write is the encoding of what is left. -/
def Obligations.HostWritesAreTheEncoding : Prop :=
  ∀ (s : State) (ops : List HostOp) (turns : List Turn) (r : HostRun),
    runTurns turns (HostRun.start s ops) = .next r → r.failed = false →
    writesOf r.accesses ++ encoding r.program = encoding ops

/-- 30_encoding.md R79, 40_config_sizing.md R100, R97: the pseudo-statement `construct`, and the host
procedure with its check of `INIT`'s outcome and its keys in any order, for any keys and any `bitsPerKey`
whose filter is feasible, from any idle state, with the engine completing commands at any times between
the host's accesses. It never stops or gives up; when it has run to its end the BFC is
in `READY` with the record that `Size` gives, every key is held, and the array is exactly the OR of the
probe masks; and it does run to its end when engine and host take turns. (The turns, the
value a `require` checks, and giving up where it is not met are the model's: log 17.) -/
def Obligations.ConstructBuildsTheFilter : Prop :=
  ∀ (s : State) (keys : List DWord) (bitsPerKey : ℝ) (ops : List HostOp) (turns : List Turn),
    Inv s → s.busy = false →
    (∃ z, Size s.params.wordWidth.toNat keys.length bitsPerKey z ∧ z.feasible s.params = true) →
    Expands s.params (.construct keys bitsPerKey) ops ∨ Builds s.params keys bitsPerKey ops →
    hostAndEngine turns = true →
    ∃ r, runTurns turns (HostRun.start s ops) = .next r ∧ r.failed = false ∧
      (r.program = [] →
        ∃ z, Size s.params.wordWidth.toNat keys.length bitsPerKey z ∧
          r.machine.busy = false ∧ r.machine.phase = .ready ∧ r.machine.err = .none ∧
          r.machine.flt.m.toNat = z.m ∧ r.machine.flt.k.toNat = z.k ∧ r.machine.flt.wc.toNat = z.wc ∧
          r.machine.draws = s.draws + 1 ∧ r.machine.busyViol = s.busyViol ∧
          (∀ key ∈ keys, Contains r.machine key) ∧
          ∀ i < r.machine.flt.wc.toNat * s.params.wordWidth.toNat,
            (bitAt s.params.wordWidth.toNat r.machine.bits i = some true ↔
              ∃ key ∈ keys, ∃ idx ∈ probes key r.machine.flt, idx.toNat = i)) ∧
      (turns = alternating ops.length → r.program = [])

/-- 40_config_sizing.md R100, `require x[STATUS].ERR = E_NONE`, and R97: for an `(m, k)` this BFC cannot
hold, `INIT` is refused with `E_CFG`, the requirement is not met, and the model's host gives up there: the
filter, the key registers and the seed source are untouched, and no key is inserted. R100 says only
"require". The model's own (log 17, DESIGN CHOICE): that a host whose `require` is not met gives up
(`failed` set, the rest of its program dropped); that the value checked is the `STATUS` which the `wait`
before it read last; the turns. -/
def Obligations.ConstructGivesUpWhenInitIsRefused : Prop :=
  ∀ (s : State) (m k : Word) (keys : List DWord) (turns : List Turn), Inv s → s.busy = false →
    ¬ (1 ≤ m.toNat ∧ 1 ≤ k.toNat ∧ k.toNat ≤ s.params.kMax.toNat ∧
      (m.toNat + s.params.wordWidth.toNat - 1) / s.params.wordWidth.toNat ≤ s.params.maxWords.toNat) →
    hostAndEngine turns = true →
    ∃ r, runTurns turns (HostRun.start s (buildOps m k keys)) = .next r ∧
      r.machine.phase = s.phase ∧ r.machine.flt = s.flt ∧ r.machine.bits = s.bits ∧
      r.machine.draws = s.draws ∧ keyOperand r.machine = keyOperand s ∧
      (r.program = [] → r.failed = true ∧ r.machine.err = .cfg) ∧
      (turns = alternating (buildOps m k keys).length → r.program = [])
end

