-- ==== Sys2Proof/Laws/State.lean ====
section
/-! SUPPORT. What each update of the state does to each field, so that no later proof unfolds an update. -/

namespace Sys2Proof.Machine

@[simp] theorem publish_params (e : ErrCode) (h : Bool) (s : State) : (publish e h s).params = s.params := rfl
@[simp] theorem publish_ie (e : ErrCode) (h : Bool) (s : State) : (publish e h s).ie = s.ie := rfl
@[simp] theorem publish_busy (e : ErrCode) (h : Bool) (s : State) : (publish e h s).busy = false := rfl
@[simp] theorem publish_done (e : ErrCode) (h : Bool) (s : State) : (publish e h s).done = true := rfl
@[simp] theorem publish_hit (e : ErrCode) (h : Bool) (s : State) : (publish e h s).hit = h := rfl
@[simp] theorem publish_phase (e : ErrCode) (h : Bool) (s : State) : (publish e h s).phase = s.phase := rfl
@[simp] theorem publish_err (e : ErrCode) (h : Bool) (s : State) : (publish e h s).err = e := rfl
@[simp] theorem publish_busyViol (e : ErrCode) (h : Bool) (s : State) : (publish e h s).busyViol = s.busyViol := rfl
@[simp] theorem publish_cfgBitCount (e : ErrCode) (h : Bool) (s : State) : (publish e h s).cfgBitCount = s.cfgBitCount := rfl
@[simp] theorem publish_cfgProbeCount (e : ErrCode) (h : Bool) (s : State) : (publish e h s).cfgProbeCount = s.cfgProbeCount := rfl
@[simp] theorem publish_keyLo (e : ErrCode) (h : Bool) (s : State) : (publish e h s).keyLo = s.keyLo := rfl
@[simp] theorem publish_keyHi (e : ErrCode) (h : Bool) (s : State) : (publish e h s).keyHi = s.keyHi := rfl
@[simp] theorem publish_flt (e : ErrCode) (h : Bool) (s : State) : (publish e h s).flt = s.flt := rfl
@[simp] theorem publish_bits (e : ErrCode) (h : Bool) (s : State) : (publish e h s).bits = s.bits := rfl
@[simp] theorem publish_cmdLatch (e : ErrCode) (h : Bool) (s : State) : (publish e h s).cmdLatch = s.cmdLatch := rfl
@[simp] theorem publish_pending (e : ErrCode) (h : Bool) (s : State) : (publish e h s).pending = s.pending := rfl
@[simp] theorem publish_port (e : ErrCode) (h : Bool) (s : State) : (publish e h s).port = s.port := rfl
@[simp] theorem publish_draws (e : ErrCode) (h : Bool) (s : State) : (publish e h s).draws = s.draws := rfl
@[simp] theorem publish_resets (e : ErrCode) (h : Bool) (s : State) : (publish e h s).resets = s.resets := rfl
@[simp] theorem publish_badReads (e : ErrCode) (h : Bool) (s : State) : (publish e h s).badReads = s.badReads := rfl

@[simp] theorem writeCtrl_params (v : Word) (s : State) : (writeCtrl v s).params = s.params := rfl
@[simp] theorem writeCtrl_ie (v : Word) (s : State) : (writeCtrl v s).ie = v.getLsbD 0 := rfl
@[simp] theorem writeCtrl_busy (v : Word) (s : State) : (writeCtrl v s).busy = s.busy := rfl
@[simp] theorem writeCtrl_done (v : Word) (s : State) : (writeCtrl v s).done = s.done := rfl
@[simp] theorem writeCtrl_hit (v : Word) (s : State) : (writeCtrl v s).hit = s.hit := rfl
@[simp] theorem writeCtrl_phase (v : Word) (s : State) : (writeCtrl v s).phase = s.phase := rfl
@[simp] theorem writeCtrl_err (v : Word) (s : State) : (writeCtrl v s).err = s.err := rfl
@[simp] theorem writeCtrl_busyViol (v : Word) (s : State) : (writeCtrl v s).busyViol = s.busyViol := rfl
@[simp] theorem writeCtrl_cfgBitCount (v : Word) (s : State) : (writeCtrl v s).cfgBitCount = s.cfgBitCount := rfl
@[simp] theorem writeCtrl_cfgProbeCount (v : Word) (s : State) : (writeCtrl v s).cfgProbeCount = s.cfgProbeCount := rfl
@[simp] theorem writeCtrl_keyLo (v : Word) (s : State) : (writeCtrl v s).keyLo = s.keyLo := rfl
@[simp] theorem writeCtrl_keyHi (v : Word) (s : State) : (writeCtrl v s).keyHi = s.keyHi := rfl
@[simp] theorem writeCtrl_flt (v : Word) (s : State) : (writeCtrl v s).flt = s.flt := rfl
@[simp] theorem writeCtrl_bits (v : Word) (s : State) : (writeCtrl v s).bits = s.bits := rfl
@[simp] theorem writeCtrl_cmdLatch (v : Word) (s : State) : (writeCtrl v s).cmdLatch = s.cmdLatch := rfl
@[simp] theorem writeCtrl_pending (v : Word) (s : State) : (writeCtrl v s).pending = s.pending := rfl
@[simp] theorem writeCtrl_port (v : Word) (s : State) : (writeCtrl v s).port = s.port := rfl
@[simp] theorem writeCtrl_draws (v : Word) (s : State) : (writeCtrl v s).draws = s.draws := rfl
@[simp] theorem writeCtrl_resets (v : Word) (s : State) : (writeCtrl v s).resets = s.resets := rfl
@[simp] theorem writeCtrl_badReads (v : Word) (s : State) : (writeCtrl v s).badReads = s.badReads := rfl

@[simp] theorem writeStatus_params (v : Word) (s : State) : (writeStatus v s).params = s.params := rfl
@[simp] theorem writeStatus_ie (v : Word) (s : State) : (writeStatus v s).ie = s.ie := rfl
@[simp] theorem writeStatus_busy (v : Word) (s : State) : (writeStatus v s).busy = s.busy := rfl
@[simp] theorem writeStatus_done (v : Word) (s : State) : (writeStatus v s).done = (s.done && !v.getLsbD 1) := rfl
@[simp] theorem writeStatus_hit (v : Word) (s : State) : (writeStatus v s).hit = s.hit := rfl
@[simp] theorem writeStatus_phase (v : Word) (s : State) : (writeStatus v s).phase = s.phase := rfl
@[simp] theorem writeStatus_err (v : Word) (s : State) : (writeStatus v s).err = s.err := rfl
@[simp] theorem writeStatus_busyViol (v : Word) (s : State) : (writeStatus v s).busyViol = (s.busyViol && !v.getLsbD 12) := rfl
@[simp] theorem writeStatus_cfgBitCount (v : Word) (s : State) : (writeStatus v s).cfgBitCount = s.cfgBitCount := rfl
@[simp] theorem writeStatus_cfgProbeCount (v : Word) (s : State) : (writeStatus v s).cfgProbeCount = s.cfgProbeCount := rfl
@[simp] theorem writeStatus_keyLo (v : Word) (s : State) : (writeStatus v s).keyLo = s.keyLo := rfl
@[simp] theorem writeStatus_keyHi (v : Word) (s : State) : (writeStatus v s).keyHi = s.keyHi := rfl
@[simp] theorem writeStatus_flt (v : Word) (s : State) : (writeStatus v s).flt = s.flt := rfl
@[simp] theorem writeStatus_bits (v : Word) (s : State) : (writeStatus v s).bits = s.bits := rfl
@[simp] theorem writeStatus_cmdLatch (v : Word) (s : State) : (writeStatus v s).cmdLatch = s.cmdLatch := rfl
@[simp] theorem writeStatus_pending (v : Word) (s : State) : (writeStatus v s).pending = s.pending := rfl
@[simp] theorem writeStatus_port (v : Word) (s : State) : (writeStatus v s).port = s.port := rfl
@[simp] theorem writeStatus_draws (v : Word) (s : State) : (writeStatus v s).draws = s.draws := rfl
@[simp] theorem writeStatus_resets (v : Word) (s : State) : (writeStatus v s).resets = s.resets := rfl
@[simp] theorem writeStatus_badReads (v : Word) (s : State) : (writeStatus v s).badReads = s.badReads := rfl

@[simp] theorem issue_params (c : Word) (s : State) : (issue c s).params = s.params := rfl
@[simp] theorem issue_ie (c : Word) (s : State) : (issue c s).ie = s.ie := rfl
@[simp] theorem issue_busy (c : Word) (s : State) : (issue c s).busy = true := rfl
@[simp] theorem issue_done (c : Word) (s : State) : (issue c s).done = false := rfl
@[simp] theorem issue_hit (c : Word) (s : State) : (issue c s).hit = s.hit := rfl
@[simp] theorem issue_phase (c : Word) (s : State) : (issue c s).phase = s.phase := rfl
@[simp] theorem issue_err (c : Word) (s : State) : (issue c s).err = s.err := rfl
@[simp] theorem issue_busyViol (c : Word) (s : State) : (issue c s).busyViol = s.busyViol := rfl
@[simp] theorem issue_cfgBitCount (c : Word) (s : State) : (issue c s).cfgBitCount = s.cfgBitCount := rfl
@[simp] theorem issue_cfgProbeCount (c : Word) (s : State) : (issue c s).cfgProbeCount = s.cfgProbeCount := rfl
@[simp] theorem issue_keyLo (c : Word) (s : State) : (issue c s).keyLo = s.keyLo := rfl
@[simp] theorem issue_keyHi (c : Word) (s : State) : (issue c s).keyHi = s.keyHi := rfl
@[simp] theorem issue_flt (c : Word) (s : State) : (issue c s).flt = s.flt := rfl
@[simp] theorem issue_bits (c : Word) (s : State) : (issue c s).bits = s.bits := rfl
@[simp] theorem issue_cmdLatch (c : Word) (s : State) : (issue c s).cmdLatch = c := rfl
@[simp] theorem issue_pending (c : Word) (s : State) : (issue c s).pending = s.pending := rfl
@[simp] theorem issue_port (c : Word) (s : State) : (issue c s).port = s.port := rfl
@[simp] theorem issue_draws (c : Word) (s : State) : (issue c s).draws = s.draws := rfl
@[simp] theorem issue_resets (c : Word) (s : State) : (issue c s).resets = s.resets := rfl
@[simp] theorem issue_badReads (c : Word) (s : State) : (issue c s).badReads = s.badReads := rfl

@[simp] theorem flagBusyViolation_params (s : State) : (flagBusyViolation s).params = s.params := rfl
@[simp] theorem flagBusyViolation_ie (s : State) : (flagBusyViolation s).ie = s.ie := rfl
@[simp] theorem flagBusyViolation_busy (s : State) : (flagBusyViolation s).busy = s.busy := rfl
@[simp] theorem flagBusyViolation_done (s : State) : (flagBusyViolation s).done = s.done := rfl
@[simp] theorem flagBusyViolation_hit (s : State) : (flagBusyViolation s).hit = s.hit := rfl
@[simp] theorem flagBusyViolation_phase (s : State) : (flagBusyViolation s).phase = s.phase := rfl
@[simp] theorem flagBusyViolation_err (s : State) : (flagBusyViolation s).err = s.err := rfl
@[simp] theorem flagBusyViolation_busyViol (s : State) : (flagBusyViolation s).busyViol = true := rfl
@[simp] theorem flagBusyViolation_cfgBitCount (s : State) : (flagBusyViolation s).cfgBitCount = s.cfgBitCount := rfl
@[simp] theorem flagBusyViolation_cfgProbeCount (s : State) : (flagBusyViolation s).cfgProbeCount = s.cfgProbeCount := rfl
@[simp] theorem flagBusyViolation_keyLo (s : State) : (flagBusyViolation s).keyLo = s.keyLo := rfl
@[simp] theorem flagBusyViolation_keyHi (s : State) : (flagBusyViolation s).keyHi = s.keyHi := rfl
@[simp] theorem flagBusyViolation_flt (s : State) : (flagBusyViolation s).flt = s.flt := rfl
@[simp] theorem flagBusyViolation_bits (s : State) : (flagBusyViolation s).bits = s.bits := rfl
@[simp] theorem flagBusyViolation_cmdLatch (s : State) : (flagBusyViolation s).cmdLatch = s.cmdLatch := rfl
@[simp] theorem flagBusyViolation_pending (s : State) : (flagBusyViolation s).pending = s.pending := rfl
@[simp] theorem flagBusyViolation_port (s : State) : (flagBusyViolation s).port = s.port := rfl
@[simp] theorem flagBusyViolation_draws (s : State) : (flagBusyViolation s).draws = s.draws := rfl
@[simp] theorem flagBusyViolation_resets (s : State) : (flagBusyViolation s).resets = s.resets := rfl
@[simp] theorem flagBusyViolation_badReads (s : State) : (flagBusyViolation s).badReads = s.badReads := rfl

@[simp] theorem refuseCommand_eq_publish (e : ErrCode) (s : State) : refuseCommand e s = publish e false s := rfl
@[simp] theorem acceptCommand_eq_publish (h : Bool) (s : State) : acceptCommand h s = publish .none h s := rfl

end Sys2Proof.Machine
end

