-- ==== Sys2Proof/Laws/Memory.lean ====
section
/-! SUPPORT. The laws of the bit array: reading after writing, the canonical form, and what the loops of
`SET` and `TEST` do bit by bit. -/

namespace Sys2Proof.Machine

/-! ### Words -/

theorem memRead_memWrite (mem : Memory) (j v i : Nat) :
    memRead (memWrite mem j v) i = if i = j then some v else memRead mem i := by
  induction mem with
  | nil => rfl
  | cons c rest ih =>
    obtain ⟨c0, w⟩ := c
    simp only [memWrite]
    split
    · rfl
    · split
      · subst j
        simp only [memRead]
        split <;> rfl
      · simp only [memRead, ih]
        split
        · split
          · omega
          · rfl
        · rfl

theorem wfFrom_mono {W M lo lo' : Nat} {mem : Memory} (h : lo' ≤ lo)
    (hm : Memory.wfFrom W M lo mem = true) : Memory.wfFrom W M lo' mem = true := by
  cases mem with
  | nil => rfl
  | cons c rest =>
    obtain ⟨j, v⟩ := c
    simp only [Memory.wfFrom, Bool.and_eq_true, decide_eq_true_eq] at hm ⊢
    exact ⟨⟨⟨by omega, hm.1.1.2⟩, hm.1.2⟩, hm.2⟩

theorem wfFrom_memWrite {W M lo j v : Nat} {mem : Memory} (hm : Memory.wfFrom W M lo mem = true)
    (hlo : lo ≤ j) (hj : j < M) (hv : v < 2 ^ W) : Memory.wfFrom W M lo (memWrite mem j v) = true := by
  induction mem generalizing lo with
  | nil => simp [memWrite, Memory.wfFrom, hlo, hj, hv]
  | cons c rest ih =>
    obtain ⟨i, w⟩ := c
    simp only [Memory.wfFrom, Bool.and_eq_true, decide_eq_true_eq] at hm
    obtain ⟨⟨⟨h1, h2⟩, h3⟩, h4⟩ := hm
    simp only [memWrite]
    split
    · simp [Memory.wfFrom, *]
    · split
      · subst j; simp [Memory.wfFrom, *]
      · have := ih h4 (by omega)
        simp [Memory.wfFrom, *]

theorem wf_memWrite {W M j v : Nat} {mem : Memory} (hm : Memory.wf W M mem = true)
    (hj : j < M) (hv : v < 2 ^ W) : Memory.wf W M (memWrite mem j v) = true :=
  wfFrom_memWrite hm (Nat.zero_le _) hj hv

/-- A word that has a value lies in the array and has `W` bits. -/
theorem wfFrom_read {W M lo j v : Nat} {mem : Memory} (hm : Memory.wfFrom W M lo mem = true)
    (hr : memRead mem j = some v) : lo ≤ j ∧ j < M ∧ v < 2 ^ W := by
  induction mem generalizing lo with
  | nil => simp [memRead] at hr
  | cons c rest ih =>
    obtain ⟨i, w⟩ := c
    simp only [Memory.wfFrom, Bool.and_eq_true, decide_eq_true_eq] at hm
    obtain ⟨⟨⟨h1, h2⟩, h3⟩, h4⟩ := hm
    simp only [memRead] at hr
    split at hr
    · simp only [Option.some.injEq] at hr
      omega
    · have := ih h4 hr
      omega

/-- Equal reads make equal arrays: the canonical form is canonical. -/
theorem wfFrom_ext {W M : Nat} {m1 m2 : Memory} {lo : Nat} (h1 : Memory.wfFrom W M lo m1 = true)
    (h2 : Memory.wfFrom W M lo m2 = true) (h : ∀ j, memRead m1 j = memRead m2 j) : m1 = m2 := by
  induction m1 generalizing m2 lo with
  | nil =>
    cases m2 with
    | nil => rfl
    | cons c rest => have := h c.1; simp [memRead] at this
  | cons c rest ih =>
    obtain ⟨i, v⟩ := c
    cases m2 with
    | nil => have := h i; simp [memRead] at this
    | cons c' rest' =>
      obtain ⟨i', v'⟩ := c'
      simp only [Memory.wfFrom, Bool.and_eq_true, decide_eq_true_eq] at h1 h2
      obtain ⟨⟨⟨a1, a2⟩, a3⟩, a4⟩ := h1
      obtain ⟨⟨⟨b1, b2⟩, b3⟩, b4⟩ := h2
      have low : ∀ {mem : Memory} {n j : Nat}, Memory.wfFrom W M n mem = true → j < n →
          memRead mem j = none := by
        intro mem n j hm hj
        cases hr : memRead mem j with
        | none => rfl
        | some x => have := wfFrom_read hm hr; omega
      have hi : i = i' := by
        rcases Nat.lt_trichotomy i i' with hlt | heq | hgt
        · have := h i
          simp [memRead, Nat.ne_of_lt hlt, low b4 (Nat.lt_succ_of_lt hlt)] at this
        · exact heq
        · have := h i'
          simp [memRead, Nat.ne_of_lt hgt, low a4 (Nat.lt_succ_of_lt hgt)] at this
      subst hi
      have hv : v = v' := by have := h i; simpa [memRead] using this
      subst hv
      have : rest = rest' := by
        refine ih a4 b4 (fun j => ?_)
        by_cases hj : j = i
        · subst hj
          rw [low a4 (Nat.lt_succ_self _), low b4 (Nat.lt_succ_self _)]
        · have := h j
          simpa [memRead, hj] using this
      rw [this]

theorem wf_ext {W M : Nat} {m1 m2 : Memory} (h1 : Memory.wf W M m1 = true)
    (h2 : Memory.wf W M m2 = true) (h : ∀ j, memRead m1 j = memRead m2 j) : m1 = m2 :=
  wfFrom_ext h1 h2 h

theorem memRead_append (m1 m2 : Memory) (j : Nat) :
    memRead (m1 ++ m2) j = (memRead m1 j).or (memRead m2 j) := by
  induction m1 with
  | nil => simp [memRead]
  | cons c rest ih =>
    obtain ⟨i, v⟩ := c
    simp only [List.cons_append, memRead, ih]
    split <;> simp

theorem memRead_zeros (js : List Nat) (j : Nat) :
    memRead (js.map (fun j => (j, 0))) j = if j ∈ js then some 0 else none := by
  induction js with
  | nil => simp [memRead]
  | cons i rest ih =>
    simp only [List.map_cons, memRead, ih, List.mem_cons]
    by_cases h : j = i <;> simp [h]

theorem memRead_filter_ge (mem : Memory) (n j : Nat) (h : n ≤ j) :
    memRead (mem.filter (fun c => decide (n ≤ c.1))) j = memRead mem j := by
  induction mem with
  | nil => rfl
  | cons c rest ih =>
    obtain ⟨i, v⟩ := c
    simp only [List.filter_cons]
    by_cases hi : n ≤ i
    · simp [hi, memRead, ih]
    · simp only [hi, decide_false, Bool.false_eq_true, if_false, memRead, ih]
      rw [if_neg (by omega)]

/-- What `INIT` leaves in the array: zero in the words in use, the others as they were. -/
theorem memRead_zeroWords (n : Nat) (mem : Memory) (j : Nat) :
    memRead (zeroWords n mem) j = if j < n then some 0 else memRead mem j := by
  simp only [zeroWords, memRead_append, memRead_zeros, List.mem_range]
  split
  · rfl
  · rename_i h
    simp only [Option.none_or]
    exact memRead_filter_ge mem n j (by omega)

theorem wfFrom_filter_ge {W M lo n : Nat} {mem : Memory} (hm : Memory.wfFrom W M lo mem = true) :
    Memory.wfFrom W M (max lo n) (mem.filter (fun c => decide (n ≤ c.1))) = true := by
  induction mem generalizing lo with
  | nil => rfl
  | cons c rest ih =>
    obtain ⟨i, v⟩ := c
    simp only [Memory.wfFrom, Bool.and_eq_true, decide_eq_true_eq] at hm
    obtain ⟨⟨⟨h1, h2⟩, h3⟩, h4⟩ := hm
    have := ih h4
    simp only [List.filter_cons]
    by_cases hi : n ≤ i
    · rw [Nat.max_eq_left (by omega)] at this
      simp [hi, Memory.wfFrom, h1, h2, h3, this]
    · simp only [hi, decide_false, Bool.false_eq_true, if_false]
      exact wfFrom_mono (by omega) this

theorem wfFrom_zeros_append {W M n lo : Nat} {tail : Memory} (hlo : lo ≤ n) (hn : n ≤ M)
    (ht : Memory.wfFrom W M n tail = true) :
    Memory.wfFrom W M lo ((List.range' lo (n - lo)).map (fun j => (j, 0)) ++ tail) = true := by
  obtain ⟨d, rfl⟩ : ∃ d, n = lo + d := ⟨n - lo, by omega⟩
  rw [Nat.add_sub_cancel_left]
  induction d generalizing lo with
  | zero => simpa using ht
  | succ d ih =>
    simp only [List.range'_succ, List.map_cons, List.cons_append, Memory.wfFrom, Bool.and_eq_true,
      decide_eq_true_eq]
    refine ⟨⟨⟨Nat.le_refl _, by omega⟩, Nat.two_pow_pos W⟩, ?_⟩
    have e : lo + (d + 1) = lo + 1 + d := by omega
    exact ih (by omega) (by omega) (by rwa [e] at ht)

theorem wf_zeroWords {W M n : Nat} {mem : Memory} (hm : Memory.wf W M mem = true) (hn : n ≤ M) :
    Memory.wf W M (zeroWords n mem) = true := by
  have := wfFrom_zeros_append (W := W) (Nat.zero_le n) hn
    (tail := mem.filter (fun c => decide (n ≤ c.1)))
    (by simpa using wfFrom_filter_ge (n := n) hm)
  simpa [Memory.wf, zeroWords, List.range_eq_range'] using this

/-- The zero fill is the loop of 41_lifecycle.md R110: one `MemWrite(j, W, 0)` for each `j` below `n`. -/
theorem zeroWords_eq_loop {W M n : Nat} {mem : Memory} (hm : Memory.wf W M mem = true) (hn : n ≤ M) :
    zeroWords n mem = (List.range n).foldl (fun m j => memWrite m j 0) mem := by
  induction n with
  | zero =>
    simp [zeroWords]
  | succ n ih =>
    rw [List.range_succ, List.foldl_append, ← ih (by omega)]
    refine wf_ext (wf_zeroWords hm hn)
      (wf_memWrite (wf_zeroWords hm (by omega)) (by omega) (Nat.two_pow_pos W)) (fun j => ?_)
    simp only [List.foldl_cons, List.foldl_nil, memRead_memWrite, memRead_zeroWords]
    by_cases h1 : j = n
    · simp [h1]
    · by_cases h2 : j < n
      · simp [h1, h2, Nat.lt_succ_of_lt h2]
      · simp [h1, h2, show ¬ j < n + 1 by omega]

theorem memOr_eq_some {mem mem' : Memory} {j mask : Nat} :
    memOr mem j mask = some mem' ↔
      ∃ v, memRead mem j = some v ∧ mem' = memWrite mem j (v ||| mask) := by
  unfold memOr
  cases memRead mem j with
  | none => simp
  | some v => simp [eq_comm]

/-! ### Bits -/

theorem div_mod_eq_iff {W t i : Nat} : (t / W = i / W ∧ t % W = i % W) ↔ t = i := by
  constructor
  · rintro ⟨h1, h2⟩
    rw [← Nat.div_add_mod t W, ← Nat.div_add_mod i W, h1, h2]
  · rintro rfl
    exact ⟨rfl, rfl⟩

theorem bitAt_setBit {W : Nat} {mem mem' : Memory} {i : Nat} (h : setBit W mem i = some mem') (t : Nat) :
    bitAt W mem' t = if t = i then some true else bitAt W mem t := by
  obtain ⟨v, hv, rfl⟩ := memOr_eq_some.mp h
  simp only [bitAt, memRead_memWrite]
  by_cases hd : t / W = i / W
  · rw [if_pos hd, hd, hv]
    simp only [Nat.testBit_or, Nat.one_shiftLeft, Nat.testBit_two_pow]
    by_cases hm : t % W = i % W
    · rw [if_pos (div_mod_eq_iff.mp ⟨hd, hm⟩)]
      simp [hm]
    · rw [if_neg (fun e => hm (by rw [e]))]
      simp [Ne.symm hm]
  · rw [if_neg hd, if_neg (fun e => hd (by rw [e]))]

theorem setBit_present {W : Nat} {mem mem' : Memory} {i : Nat} (h : setBit W mem i = some mem') (j : Nat) :
    (memRead mem' j).isSome = (memRead mem j).isSome := by
  obtain ⟨v, hv, rfl⟩ := memOr_eq_some.mp h
  rw [memRead_memWrite]
  split
  · rename_i e; simp [e, hv]
  · rfl

theorem shift_lt_of_pos {W i : Nat} (hW : 0 < W) : 1 <<< (i % W) < 2 ^ W := by
  rw [Nat.one_shiftLeft]
  exact Nat.pow_lt_pow_right (by omega) (Nat.mod_lt _ hW)

theorem wf_setBit {W M : Nat} {mem mem' : Memory} {i : Nat} (hW : 0 < W)
    (hm : Memory.wf W M mem = true) (h : setBit W mem i = some mem') : Memory.wf W M mem' = true := by
  obtain ⟨v, hv, rfl⟩ := memOr_eq_some.mp h
  have hr := wfFrom_read hm hv
  exact wf_memWrite hm hr.2.1 (Nat.or_lt_two_pow hr.2.2 (shift_lt_of_pos hW))

theorem setBits_cons {W : Nat} {mem mem' : Memory} {i : Word} {rest : List Word} :
    setBits W mem (i :: rest) = some mem' ↔
      ∃ m1, setBit W mem i.toNat = some m1 ∧ setBits W m1 rest = some mem' := by
  simp only [setBits]
  cases setBit W mem i.toNat <;> simp

/-- Everything the bit-set loop can do, bit by bit (43_set.md R151). -/
theorem bitAt_setBits {W : Nat} {mem mem' : Memory} {idxs : List Word}
    (h : setBits W mem idxs = some mem') (t : Nat) :
    bitAt W mem' t = if t ∈ idxs.map BitVec.toNat then some true else bitAt W mem t := by
  induction idxs generalizing mem with
  | nil => simp only [setBits, Option.some.injEq] at h; simp [h]
  | cons i rest ih =>
    obtain ⟨m1, h1, h2⟩ := setBits_cons.mp h
    rw [ih h2, bitAt_setBit h1]
    simp only [List.map_cons, List.mem_cons]
    by_cases e : t = i.toNat <;> simp [e]

theorem setBits_present {W : Nat} {mem mem' : Memory} {idxs : List Word}
    (h : setBits W mem idxs = some mem') (j : Nat) :
    (memRead mem' j).isSome = (memRead mem j).isSome := by
  induction idxs generalizing mem with
  | nil => simp only [setBits, Option.some.injEq] at h; rw [h]
  | cons i rest ih =>
    obtain ⟨m1, h1, h2⟩ := setBits_cons.mp h
    rw [ih h2, setBit_present h1]

theorem wf_setBits {W M : Nat} {mem mem' : Memory} {idxs : List Word} (hW : 0 < W)
    (hm : Memory.wf W M mem = true) (h : setBits W mem idxs = some mem') :
    Memory.wf W M mem' = true := by
  induction idxs generalizing mem with
  | nil => simp only [setBits, Option.some.injEq] at h; rwa [← h]
  | cons i rest ih =>
    obtain ⟨m1, h1, h2⟩ := setBits_cons.mp h
    exact ih (wf_setBit hW hm h1) h2

/-- The bit-set loop completes where every word it targets has a value. -/
theorem setBits_completes {W : Nat} {mem : Memory} {idxs : List Word}
    (h : ∀ i ∈ idxs, (memRead mem (i.toNat / W)).isSome = true) : ∃ mem', setBits W mem idxs = some mem' := by
  induction idxs generalizing mem with
  | nil => exact ⟨mem, rfl⟩
  | cons i rest ih =>
    obtain ⟨v, hv⟩ := Option.isSome_iff_exists.mp (h i (by simp))
    have h1 : setBit W mem i.toNat = some (memWrite mem (i.toNat / W) (v ||| 1 <<< (i.toNat % W))) :=
      memOr_eq_some.mpr ⟨v, hv, rfl⟩
    obtain ⟨mem', h2⟩ := ih (mem := memWrite mem (i.toNat / W) (v ||| 1 <<< (i.toNat % W)))
      (fun x hx => by rw [setBit_present h1]; exact h x (by simp [hx]))
    exact ⟨mem', setBits_cons.mpr ⟨_, h1, h2⟩⟩

theorem bitAt_isSome (W : Nat) (mem : Memory) (t : Nat) :
    (bitAt W mem t).isSome = (memRead mem (t / W)).isSome := by
  unfold bitAt
  cases memRead mem (t / W) <;> rfl

/-- Everything the bit-test loop can answer: the AND of the bits, whatever the early exit (44_test.md R161). -/
theorem testBits_eq_and {W : Nat} {mem : Memory} {idxs : List Word}
    (h : ∀ i ∈ idxs, (bitAt W mem i.toNat).isSome = true) :
    testBits W mem idxs = some (idxs.all (fun i => bitAt W mem i.toNat == some true)) := by
  induction idxs with
  | nil => rfl
  | cons i rest ih =>
    obtain ⟨b, hb⟩ := Option.isSome_iff_exists.mp (h i (by simp))
    have ih' := ih (fun x hx => h x (by simp [hx]))
    cases b <;> simp [testBits, hb, ih']

theorem testBits_true_iff {W : Nat} {mem : Memory} {idxs : List Word} :
    testBits W mem idxs = some true ↔ ∀ i ∈ idxs, bitAt W mem i.toNat = some true := by
  induction idxs with
  | nil => simp [testBits]
  | cons i rest ih =>
    simp only [testBits, List.mem_cons, forall_eq_or_imp]
    cases bitAt W mem i.toNat with
    | none => simp
    | some b => cases b <;> simp [ih]

/-- Setting bits that are set changes nothing (20_memory.md R57). -/
theorem setBits_of_all_set {W : Nat} (M : Nat) : ∀ {idxs : List Word} {mem : Memory},
    Memory.wf W M mem = true → 0 < W → (∀ i ∈ idxs, bitAt W mem i.toNat = some true) →
    setBits W mem idxs = some mem := by
  intro idxs
  induction idxs with
  | nil => intros; rfl
  | cons i rest ih =>
    intro mem hm hW h
    have hi := h i (by simp)
    unfold bitAt at hi
    split at hi
    · rename_i v hv
      rw [setBits_cons]
      refine ⟨mem, ?_, ih hm hW (fun x hx => h x (by simp [hx]))⟩
      refine memOr_eq_some.mpr ⟨v, hv, ?_⟩
      have hr := wfFrom_read hm hv
      refine wf_ext hm (wf_memWrite hm hr.2.1 (Nat.or_lt_two_pow hr.2.2 (shift_lt_of_pos hW))) (fun j => ?_)
      rw [memRead_memWrite]
      split
      · rename_i e; rw [e, hv]; congr 1
        apply Nat.eq_of_testBit_eq
        intro n
        rw [Nat.testBit_or, Nat.one_shiftLeft, Nat.testBit_two_pow]
        simp only [Option.some.injEq] at hi
        by_cases hn : i.toNat % W = n
        · subst hn; rw [hi]; rfl
        · simp [hn]
      · rfl
    · cases hi

/-- Arrays in canonical form with equal bits are equal. -/
theorem bitAt_ext {W M : Nat} {m1 m2 : Memory} (hW : 1 ≤ W) (h1 : Memory.wf W M m1 = true)
    (h2 : Memory.wf W M m2 = true) (h : ∀ t, bitAt W m1 t = bitAt W m2 t) : m1 = m2 := by
  apply wf_ext h1 h2
  intro j
  have hd : ∀ b < W, (j * W + b) / W = j := fun b hb => by
    rw [Nat.mul_comm, Nat.mul_add_div (by omega), Nat.div_eq_of_lt hb]; omega
  have hm : ∀ b < W, (j * W + b) % W = b := fun b hb => by
    rw [Nat.mul_comm, Nat.mul_add_mod, Nat.mod_eq_of_lt hb]
  have h0 := h (j * W + 0)
  simp only [bitAt, hd 0 (by omega)] at h0
  cases r1 : memRead m1 j with
  | none => cases r2 : memRead m2 j with
    | none => rfl
    | some v => rw [r1, r2] at h0; cases h0
  | some v1 => cases r2 : memRead m2 j with
    | none => rw [r1, r2] at h0; cases h0
    | some v2 =>
      congr 1
      apply Nat.eq_of_testBit_eq
      intro b
      by_cases hb : b < W
      · have := h (j * W + b)
        simpa [bitAt, hd b hb, hm b hb, r1, r2] using this
      · have a1 := (wfFrom_read h1 r1).2.2
        have a2 := (wfFrom_read h2 r2).2.2
        have hp : 2^W ≤ 2^b := Nat.pow_le_pow_right (by omega) (by omega)
        rw [Nat.testBit_lt_two_pow (by omega), Nat.testBit_lt_two_pow (by omega)]

end Sys2Proof.Machine
end

