-- ==== Sys2Proof/Laws/Probes.lean ====
section
/-! SUPPORT. The laws of the probe derivation: what `reduce` computes and where the indices lie. -/

namespace Sys2Proof.Machine

/-- `reduce` is the multiply-high of 42_probe_derivation.md R132, on numbers. -/
theorem reduce_toNat (a m : Word) : (reduce a m).toNat = a.toNat * m.toNat / 2 ^ 32 := by
  have h : a.toNat * m.toNat < 2 ^ 64 := by
    have := Nat.mul_le_mul (Nat.le_of_lt_succ a.isLt) (Nat.le_of_lt_succ m.isLt)
    omega
  have ha : a.toNat % 2 ^ 64 = a.toNat := Nat.mod_eq_of_lt (by have := a.isLt; omega)
  have hm : m.toNat % 2 ^ 64 = m.toNat := Nat.mod_eq_of_lt (by have := m.isLt; omega)
  simp only [reduce, BitVec.extractLsb'_toNat, BitVec.toNat_mul, BitVec.toNat_setWidth,
    Nat.shiftRight_eq_div_pow, ha, hm]
  rw [Nat.mod_eq_of_lt h]
  exact Nat.mod_eq_of_lt (by omega)

theorem reduce_lt {a m : Word} (h : 1 ≤ m.toNat) : (reduce a m).toNat < m.toNat := by
  rw [reduce_toNat]
  refine Nat.div_lt_of_lt_mul ?_
  exact Nat.mul_lt_mul_of_pos_right a.isLt h

theorem length_probesFrom (b m : Word) (k : Nat) (a : Word) : (probesFrom b m k a).length = k := by
  induction k generalizing a with
  | zero => rfl
  | succ k ih => simp [probesFrom, ih]

theorem mem_probesFrom_lt {b m : Word} (h : 1 ≤ m.toNat) {k : Nat} {a idx : Word}
    (hi : idx ∈ probesFrom b m k a) : idx.toNat < m.toNat := by
  induction k generalizing a with
  | zero => simp [probesFrom] at hi
  | succ k ih =>
    simp only [probesFrom, List.mem_cons] at hi
    rcases hi with rfl | hi
    · exact reduce_lt h
    · exact ih hi

theorem length_probes (key : DWord) (flt : FilterRecord) : (probes key flt).length = flt.k.toNat :=
  length_probesFrom _ _ _ _

/-- Every probe of a legal record is below `FLT.m` (20_memory.md R54). -/
theorem mem_probes_lt {key : DWord} {flt : FilterRecord} (h : 1 ≤ flt.m.toNat) {idx : Word}
    (hi : idx ∈ probes key flt) : idx.toNat < flt.m.toNat :=
  mem_probesFrom_lt h hi

/-- The word an index below `m` lies in is one of the `ceil(m / W)` words (20_memory.md R54). -/
theorem div_lt_ceilDiv {t m W : Nat} (h : t < m) : t / W < ceilDiv m W ∨ W = 0 := by
  rcases Nat.eq_zero_or_pos W with hW | hW
  · exact Or.inr hW
  · left
    unfold ceilDiv
    rw [Nat.div_lt_iff_lt_mul hW]
    have h1 := Nat.div_add_mod (m + W - 1) W
    have h2 := Nat.mod_lt (m + W - 1) hW
    rw [Nat.mul_comm] at h1
    omega

end Sys2Proof.Machine
end

