-- ==== Sys2Proof/Laws/Commands.lean ====
section
/-! SUPPORT. What a command can do, said once: every later proof about commands cites `exec_cases`. -/

namespace Sys2Proof.Machine

theorem encode_injective {i j : Instr} (h : encode i = encode j) : i = j := by
  cases i <;> cases j <;> first | rfl | (revert h; decide)

/-- The staged word count of a legal configuration fits the 32 bits of `FLT.wc`. -/
theorem toNat_newRecord_wc {s : State} (h : stagedConfigLegal s = true) :
    (newRecord s).wc.toNat = stagedWordCount s := by
  simp only [stagedConfigLegal, Bool.and_eq_true, decide_eq_true_eq] at h
  have := s.params.maxWords.isLt
  simp only [newRecord, BitVec.toNat_ofNat]
  exact Nat.mod_eq_of_lt (by omega)

theorem execInit_eq (s : State) :
    execInit s = if stagedConfigLegal s = true then
      .next (publish .none false
        { s with flt := newRecord s, bits := zeroWords (stagedWordCount s) s.bits,
                 draws := s.draws + 1, phase := .build })
    else .next (publish .cfg false s) := rfl

theorem execSeal_eq (s : State) :
    execSeal s = if s.phase = .build then .next (publish .none false { s with phase := .ready })
    else .next (publish .phase false s) := rfl

theorem execSet_next {s t : State} (h : execSet s = .next t) :
    (s.phase = .build ∧ ∃ mem, setBits s.params.wordWidth.toNat s.bits (probes (keyOperand s) s.flt) = some mem ∧
        t = publish .none false { s with bits := mem }) ∨
      (s.phase ≠ .build ∧ t = publish .phase false s) := by
  unfold execSet at h
  split at h
  · rename_i hp
    refine .inl ⟨hp, ?_⟩
    unfold insertProbes at h
    split at h
    · rename_i mem hm
      exact ⟨mem, hm, by simpa using h.symm⟩
    · cases h
  · rename_i hp
    exact .inr ⟨hp, by simpa using h.symm⟩

theorem execTest_next {s t : State} (h : execTest s = .next t) :
    (s.phase = .ready ∧ ∃ b, testBits s.params.wordWidth.toNat s.bits (probes (keyOperand s) s.flt) = some b ∧
        t = publish .none b s) ∨
      (s.phase ≠ .ready ∧ t = publish .phase false s) := by
  unfold execTest at h
  split at h
  · rename_i hp
    refine .inl ⟨hp, ?_⟩
    unfold queryProbes at h
    split at h
    · rename_i b hb
      exact ⟨b, hb, by simpa using h.symm⟩
    · cases h
  · rename_i hp
    exact .inr ⟨hp, by simpa using h.symm⟩

/-- Everything a command can do when it answers a next state. -/
theorem exec_cases {i : Instr} {s t : State} (h : exec i s = .next t) :
    (i = .cmdInit ∧ stagedConfigLegal s = true ∧
      t = publish .none false { s with flt := newRecord s, bits := zeroWords (stagedWordCount s) s.bits,
                                       draws := s.draws + 1, phase := .build }) ∨
    (i = .cmdInit ∧ stagedConfigLegal s = false ∧ t = publish .cfg false s) ∨
    (i = .cmdSet ∧ s.phase = .build ∧
      ∃ mem, setBits s.params.wordWidth.toNat s.bits (probes (keyOperand s) s.flt) = some mem ∧
        t = publish .none false { s with bits := mem }) ∨
    (i = .cmdSeal ∧ s.phase = .build ∧ t = publish .none false { s with phase := .ready }) ∨
    (i = .cmdTest ∧ s.phase = .ready ∧
      ∃ b, testBits s.params.wordWidth.toNat s.bits (probes (keyOperand s) s.flt) = some b ∧
        t = publish .none b s) ∨
    (((i = .cmdSet ∧ s.phase ≠ .build) ∨ (i = .cmdSeal ∧ s.phase ≠ .build) ∨
        (i = .cmdTest ∧ s.phase ≠ .ready)) ∧ t = publish .phase false s) := by
  cases i with
  | cmdInit =>
    have h : execInit s = .next t := h
    rw [execInit_eq] at h
    split at h <;> rename_i hl
    · exact .inl ⟨rfl, hl, by simpa using h.symm⟩
    · exact .inr (.inl ⟨rfl, by simpa using hl, by simpa using h.symm⟩)
  | cmdSet =>
    rcases execSet_next h with ⟨hp, hm⟩ | ⟨hp, ht⟩
    · exact .inr (.inr (.inl ⟨rfl, hp, hm⟩))
    · exact .inr (.inr (.inr (.inr (.inr ⟨.inl ⟨rfl, hp⟩, ht⟩))))
  | cmdSeal =>
    have h : execSeal s = .next t := h
    rw [execSeal_eq] at h
    split at h <;> rename_i hp
    · exact .inr (.inr (.inr (.inl ⟨rfl, hp, by simpa using h.symm⟩)))
    · exact .inr (.inr (.inr (.inr (.inr ⟨.inr (.inl ⟨rfl, hp⟩), by simpa using h.symm⟩))))
  | cmdTest =>
    rcases execTest_next h with ⟨hp, hb⟩ | ⟨hp, ht⟩
    · exact .inr (.inr (.inr (.inr (.inl ⟨rfl, hp, hb⟩))))
    · exact .inr (.inr (.inr (.inr (.inr ⟨.inr (.inr ⟨rfl, hp⟩), ht⟩))))

/-- Under the invariant every probed word of the current filter has a value. -/
theorem probe_words_present {s : State} (hi : Inv s) (hp : s.phase ≠ .empty) {key : DWord} {idx : Word}
    (h : idx ∈ probes key s.flt) :
    (memRead s.bits (idx.toNat / s.params.wordWidth.toNat)).isSome = true := by
  have hr := hi.record_legal hp
  refine hi.words_present hp _ ?_
  rw [hr.2.2.2.1]
  have hl := hi.params_legal
  simp only [Params.legal, Bool.and_eq_true, decide_eq_true_eq] at hl
  rcases div_lt_ceilDiv (W := s.params.wordWidth.toNat) (mem_probes_lt hr.1 h) with h1 | h1
  · exact h1
  · omega

end Sys2Proof.Machine
end

