-- ==== Sys2Proof/Laws/Decode.lean ====
section
/-! SUPPORT. What the decoder accepts, said once. -/

namespace Sys2Proof

/-- A word is its field `ZERO` above its field `OPCODE` (30_encoding.md R70). -/
theorem word_split (c : Word) : c.extractLsb' 8 24 ++ c.extractLsb' 0 8 = c := by
  apply BitVec.eq_of_getLsbD_eq
  intro i hi
  simp only [BitVec.getLsbD_append, BitVec.getLsbD_extractLsb']
  by_cases h : i < 8
  · simp [h]
  · simp [h, show i - 8 < 24 by omega, show 8 + (i - 8) = i by omega]

/-- The decoder reads a command from its own word and from no other. -/
theorem decodeWord_eq_ok_iff {c : Word} {i : Instr} : decodeWord c = .ok i ↔ c = encode i := by
  constructor
  · intro h
    unfold decodeWord at h
    split at h
    · rename_i hz
      have key : ∀ op : Byte, opcodeField c = op → c = 0#24 ++ op := by
        intro op ho
        rw [← word_split c]
        have h0 : c.extractLsb' 8 24 = 0 := hz
        have h1 : c.extractLsb' 0 8 = op := ho
        rw [h0, h1]; rfl
      unfold decodeOpcode at h
      split at h
      · rename_i ho; cases h; rw [key _ ho]; rfl
      · split at h
        · rename_i ho; cases h; rw [key _ ho]; rfl
        · split at h
          · rename_i ho; cases h; rw [key _ ho]; rfl
          · split at h
            · rename_i ho; cases h; rw [key _ ho]; rfl
            · cases h
    · cases h
  · rintro rfl
    cases i <;> rfl

end Sys2Proof
end

