-- ==== Sys2Proof/Laws/Step.lean ====
section
/-! SUPPORT. What a step can do, said once: every later proof about steps cites `step_cases`. -/

namespace Sys2Proof.Machine

/-- What completing the word in the latch can do. -/
theorem complete_cases {s t : State} (h : complete s = .next t) :
    (∃ i, decodeWord s.cmdLatch = .ok i ∧ exec i s = .next t) ∨
      (∃ e, decodeWord s.cmdLatch = .error e ∧ t = publish .illegal false s) := by
  unfold complete at h
  split at h
  · rename_i i hd
    exact .inl ⟨i, hd, h⟩
  · rename_i e hd
    exact .inr ⟨e, hd, by simpa using h.symm⟩

theorem engineTurn_cases {s t : State} (h : engineTurn s = .next t) :
    (s.busy = true ∧ complete s = .next t) ∨ (s.busy = false ∧ t = s) := by
  unfold engineTurn at h
  split at h
  · rename_i hb
    exact .inl ⟨hb, h⟩
  · rename_i hb
    exact .inr ⟨by simpa using hb, by simpa using h.symm⟩

/-- Everything a step can do when it answers a next state: a bus access, a reset, an idle turn of the
engine, or a completion. -/
theorem step_cases {s t : State} (h : step s = .next t) :
    (∃ a rest, s.pending = .access a :: rest ∧ t = portAccess a { s with pending := rest }) ∨
    (∃ rest, s.pending = .rst :: rest ∧ t = assertReset { s with pending := rest }) ∨
    (∃ rest, EngineNext s rest ∧ s.busy = false ∧ t = { s with pending := rest }) ∨
    (∃ rest, EngineNext s rest ∧ s.busy = true ∧ complete { s with pending := rest } = .next t) := by
  unfold step nextMove at h
  split at h
  · rename_i hp
    have e : { s with pending := [] } = s := by cases s; simp_all
    rcases engineTurn_cases h with ⟨hb, hc⟩ | ⟨hb, ht⟩
    · exact .inr (.inr (.inr ⟨[], .inl ⟨hp, rfl⟩, hb, by rwa [e]⟩))
    · exact .inr (.inr (.inl ⟨[], .inl ⟨hp, rfl⟩, hb, by rw [e]; exact ht⟩))
  · rename_i ev rest hp
    cases ev with
    | access a => exact .inl ⟨a, rest, hp, by simpa [takeEvent] using h.symm⟩
    | engine =>
      rcases engineTurn_cases (show engineTurn { s with pending := rest } = .next t from h) with
        ⟨hb, hc⟩ | ⟨hb, ht⟩
      · exact .inr (.inr (.inr ⟨rest, .inr hp, hb, hc⟩))
      · exact .inr (.inr (.inl ⟨rest, .inr hp, hb, ht⟩))
    | rst => exact .inr (.inl ⟨rest, hp, by simpa [takeEvent] using h.symm⟩)

theorem EngineNext.pending_eq {s : State} {rest : List Event} (h : EngineNext s rest) :
    (s.pending = [] ∧ rest = []) ∨ s.pending = .engine :: rest := h

/-- The engine's turn, as a step. -/
theorem step_of_engineNext {s : State} {rest : List Event} (h : EngineNext s rest) :
    step s = engineTurn { s with pending := rest } := by
  rcases h with ⟨hp, rfl⟩ | hp
  · have e : { s with pending := [] } = s := by cases s; simp_all
    rw [e]
    simp [step, nextMove, hp]
  · simp [step, nextMove, hp, takeEvent]

theorem step_access {s : State} {a : Access} {rest : List Event} (h : s.pending = .access a :: rest) :
    step s = .next (portAccess a { s with pending := rest }) := by
  simp [step, nextMove, h, takeEvent]

theorem step_rst {s : State} {rest : List Event} (h : s.pending = .rst :: rest) :
    step s = .next (assertReset { s with pending := rest }) := by
  simp [step, nextMove, h, takeEvent]

/-- Everything a bus access can do. -/
theorem portAccess_cases (a : Access) (s : State) :
    (a.wellFormed = true ∧ a.kind = .read ∧ portAccess a s = { s with port := .data (portRead s a.offset) }) ∨
    (∃ v, a.wellFormed = true ∧ a.kind = .write v ∧
      portAccess a s = { portWrite a.offset v s with port := .written }) ∨
    (a.wellFormed = false ∧ portAccess a s = portRefuse a.kind s) := by
  cases hw : a.wellFormed <;> cases hk : a.kind <;> simp [portAccess, hw, hk]

/-- Everything a well-formed write can do. -/
theorem portWrite_cases (offset : Nat) (v : Word) (s : State) :
    (s.busy = true ∧ portWrite offset v s = flagBusyViolation s) ∨
    (s.busy = false ∧ regAt offset = none ∧ portWrite offset v s = s) ∨
    (∃ r, s.busy = false ∧ regAt offset = some r ∧ portWrite offset v s = writeReg r v s) := by
  cases hb : s.busy <;> cases hr : regAt offset <;> simp [portWrite, hb, hr]

/-- What no completion changes, and what every completion leaves (30_encoding.md R76). -/
theorem complete_frame {s t : State} (h : complete s = .next t) :
    t.params = s.params ∧ t.busyViol = s.busyViol ∧ t.done = true ∧ t.busy = false ∧ t.ie = s.ie ∧
      t.pending = s.pending ∧ t.resets = s.resets ∧ t.cmdLatch = s.cmdLatch ∧ t.keyHi = s.keyHi ∧
      t.keyLo = s.keyLo ∧ t.cfgBitCount = s.cfgBitCount ∧ t.cfgProbeCount = s.cfgProbeCount := by
  rcases complete_cases h with ⟨i, hd, hx⟩ | ⟨e, hd, rfl⟩
  · rcases exec_cases hx with ⟨rfl, -, rfl⟩ | ⟨rfl, -, rfl⟩ | ⟨rfl, -, m, -, rfl⟩ | ⟨rfl, -, rfl⟩ |
      ⟨rfl, -, b, -, rfl⟩ | ⟨h, rfl⟩
    all_goals simp
  · simp

/-- What no bus access changes. -/
theorem portAccess_frame (a : Access) (s : State) :
    (portAccess a s).params = s.params ∧ (portAccess a s).flt = s.flt ∧ (portAccess a s).bits = s.bits ∧
      (portAccess a s).phase = s.phase ∧ (portAccess a s).hit = s.hit ∧ (portAccess a s).err = s.err ∧
      (portAccess a s).draws = s.draws ∧ (portAccess a s).resets = s.resets ∧
      (portAccess a s).pending = s.pending := by
  rcases portAccess_cases a s with ⟨_, _, h⟩ | ⟨v, hw, hk, h⟩ | ⟨_, h⟩
  · rw [h]; simp
  · rw [h]
    rcases portWrite_cases a.offset v s with ⟨_, h⟩ | ⟨_,_,h⟩ | ⟨r, hb, hr, h⟩
    · rw [h]; simp [flagBusyViolation]
    · rw [h]; simp
    · rw [h]; cases r <;> simp [writeReg, writeCtrl, writeStatus, issue]
  · rw [h]; cases hk : a.kind <;> simp [portRefuse]

/-- All that a bus access can change while a command is in flight (10_state.md R41). -/
theorem portAccess_while_busy (a : Access) {s : State} (hb : s.busy = true) :
    ∃ p b n, portAccess a s = { s with port := p, busyViol := b, badReads := n } := by
  rcases portAccess_cases a s with ⟨_, _, h⟩ | ⟨v, hw, hk, h⟩ | ⟨_, h⟩
  · exact ⟨_, s.busyViol, s.badReads, h⟩
  · rcases portWrite_cases a.offset v s with ⟨_, h'⟩ | ⟨hb',_,h'⟩ | ⟨r, hb', hr, h'⟩
    · rw [h, h']; exact ⟨_, _, _, rfl⟩
    · rw [hb] at hb'; cases hb'
    · rw [hb] at hb'; cases hb'
  · rw [h]; cases hk : a.kind <;> exact ⟨_, _, _, rfl⟩

theorem isCompletion_iff {s : State} :
    isCompletion s = true ↔ s.busy = true ∧ ∃ rest, EngineNext s rest := by
  unfold isCompletion EngineNext
  split <;> simp_all

/-- What a step can do to the filter: a reset ends it, an accepted `INIT` replaces it, an accepted `SET`
sets bits, and anything else leaves it, `SEAL` in its next phase. -/
theorem step_filter_cases {s t : State} (hs : step s = .next t) :
    (takesReset s = true ∧ t.flt.m = 0 ∧ t.flt.k = 0 ∧ t.flt.wc = 0 ∧ t.phase = .empty ∧
      t.draws = s.draws ∧ t.resets = s.resets + 1 ∧ acceptsInit s = false ∧ t.params = s.params) ∨
    (takesReset s = false ∧ t.params = s.params ∧ t.resets = s.resets ∧
      ((acceptsInit s = true ∧ t.flt = newRecord s ∧ t.bits = zeroWords (stagedWordCount s) s.bits ∧
          t.draws = s.draws + 1 ∧ t.phase = .build) ∨
        (acceptsInit s = false ∧ acceptsSet s = true ∧ s.phase = .build ∧ t.phase = .build ∧
          t.flt = s.flt ∧ t.draws = s.draws ∧
          ∃ key, setBits s.params.wordWidth.toNat s.bits (probes key s.flt) = some t.bits) ∨
        (acceptsInit s = false ∧ t.flt = s.flt ∧ t.draws = s.draws ∧ t.bits = s.bits ∧
          (t.phase = s.phase ∨ (s.phase = .build ∧ t.phase = .ready))))) := by
  rcases step_cases hs with ⟨a, rest, hp, rfl⟩ | ⟨rest, hp, rfl⟩ | ⟨rest, he, hb', rfl⟩ | ⟨rest, he, hb, hc⟩
  · right
    have := portAccess_frame a { s with pending := rest }
    have h0 : isCompletion s = false := by simp [isCompletion, hp]
    refine ⟨by simp [takesReset, hp], this.1, this.2.2.2.2.2.2.2.1, .inr (.inr ⟨by simp [acceptsInit, h0], this.2.1, this.2.2.2.2.2.2.1, this.2.2.1, .inl this.2.2.2.1⟩)⟩
  · left
    have h0 : isCompletion s = false := by simp [isCompletion, hp]
    refine ⟨by simp [takesReset, hp], rfl, rfl, rfl, rfl, rfl, rfl, by simp [acceptsInit, h0], rfl⟩
  · right
    have h0 : isCompletion s = false := by
      cases h : isCompletion s with
      | false => rfl
      | true => have := (isCompletion_iff.mp h).1; simp [hb'] at this
    have h1 : takesReset s = false := by rcases he with ⟨h,_⟩|h <;> simp [takesReset, h]
    exact ⟨h1, rfl, rfl, .inr (.inr ⟨by simp [acceptsInit, h0], rfl, rfl, rfl, .inl rfl⟩)⟩
  · right
    have h0 : isCompletion s = true := isCompletion_iff.mpr ⟨hb, rest, he⟩
    have h1 : takesReset s = false := by rcases he with ⟨h,_⟩|h <;> simp [takesReset, h]
    refine ⟨h1, (complete_frame hc).1, (complete_frame hc).2.2.2.2.2.2.1, ?_⟩
    rcases complete_cases hc with ⟨i, hd, hx⟩ | ⟨e, hd, rfl⟩
    · have hlat := decodeWord_eq_ok_iff.mp hd
      change s.cmdLatch = encode i at hlat
      rcases exec_cases hx with ⟨rfl,h,rfl⟩|⟨rfl,h,rfl⟩|⟨rfl,h,mem,hm,rfl⟩|⟨rfl,h,rfl⟩|⟨rfl,h,b,hb,rfl⟩|⟨h,rfl⟩
      · left
        refine ⟨?_, rfl, rfl, rfl, rfl⟩
        simp only [acceptsInit, h0, hlat, decide_true, Bool.true_and]; exact h
      · right; right
        refine ⟨?_, rfl, rfl, rfl, .inl rfl⟩
        simp only [acceptsInit, h0, hlat, decide_true, Bool.true_and]; exact h
      · right; left
        refine ⟨?_, ?_, h, h, rfl, rfl, _, hm⟩
        · simp only [acceptsInit, hlat]; simp [encode]
        · simp only [acceptsSet, h0, hlat, decide_true, Bool.true_and]; simpa using h
      · right; right
        refine ⟨?_, rfl, rfl, rfl, .inr ⟨h, rfl⟩⟩
        simp only [acceptsInit, hlat]; simp [encode]
      · right; right
        refine ⟨?_, rfl, rfl, rfl, .inl rfl⟩
        simp only [acceptsInit, hlat]; simp [encode]
      · right; right
        refine ⟨?_, rfl, rfl, rfl, .inl rfl⟩
        rcases h with ⟨rfl,_⟩|⟨rfl,_⟩|⟨rfl,_⟩ <;> (simp only [acceptsInit, hlat]; simp [encode])
    · right; right
      refine ⟨?_, rfl, rfl, rfl, .inl rfl⟩
      change decodeWord s.cmdLatch = .error e at hd
      have : s.cmdLatch ≠ encode .cmdInit := by
        intro h; rw [decodeWord_eq_ok_iff.mpr h] at hd; cases hd
      simp [acceptsInit, this]

/-! ### Runs -/

/-- The first step of a run that goes on. -/
theorem core_run_succ (M : Host.Core) (n : Nat) (s : M.State) {t : M.State} (h : M.step s = .next t) :
    M.run (n + 1) s = M.run n t := by
  rw [Host.Core.run, h]

theorem core_run_split (M : Host.Core) (n : Nat) (s : M.State) {u : M.State}
    (h : M.run (n + 1) s = .next u) : ∃ t, M.step s = .next t ∧ M.run n t = .next u := by
  rw [Host.Core.run] at h
  split at h
  · exact ⟨_, ‹_›, h⟩
  · cases h
  · cases h

theorem run_succ (n : Nat) {s t : State} (h : step s = .next t) :
    Host.Core.run core (n + 1) s = Host.Core.run core n t :=
  core_run_succ core n s h

theorem run_split {n : Nat} {s u : State} (h : Host.Core.run core (n + 1) s = .next u) :
    ∃ t, step s = .next t ∧ Host.Core.run core n t = .next u :=
  core_run_split core n s h

end Sys2Proof.Machine
end

