-- ==== Sys2Proof/Laws/HostProc.lean ====
section
/-! SUPPORT. What a turn of the host or of its environment can do, said once. -/

namespace Sys2Proof.Machine

theorem regOffset_wellFormed (kind : AccessKind) (reg : Reg) :
    Access.wellFormed ⟨kind, 32, regOffset reg⟩ = true := by
  cases reg <;> simp [Access.wellFormed, regOffset]

/-- A turn of the host with a write: the register is written as the port writes it. -/
theorem hostTurn_wr {r : HostRun} {reg : Reg} {v : Word} {rest : List HostOp}
    (h : r.program = .wr reg v :: rest) :
    hostTurn r = .next ⟨{ portWrite (regOffset reg) v { r.machine with pending := [] } with port := .written },
      rest, r.accesses ++ [⟨.write v, 32, regOffset reg⟩], r.reads, r.failed⟩ := by
  simp [hostTurn, h, opAccess, step, nextMove, takeEvent, portAccess, regOffset_wellFormed, opsLeft, portValue]

/-- A turn of the host with a read. -/
theorem hostTurn_rd {r : HostRun} {reg : Reg} {rest : List HostOp} (h : r.program = .rd reg :: rest) :
    hostTurn r = .next ⟨{ r.machine with pending := [], port := .data (readReg r.machine reg) }, rest,
      r.accesses ++ [⟨.read, 32, regOffset reg⟩], readReg r.machine reg :: r.reads, r.failed⟩ := by
  have hr : portRead { r.machine with pending := [] } (regOffset reg) = readReg r.machine reg := by
    cases reg <;> rfl
  simp [hostTurn, h, opAccess, step, nextMove, takeEvent, portAccess, regOffset_wellFormed, hr, opsLeft, portValue]

/-- What a turn of the environment does to the run is what its event does to the machine. -/
theorem takeTurn_env {e : Event} {r : HostRun} {t : State}
    (h : step { r.machine with pending := [e] } = .next t) :
    takeTurn (.env e) r = .next { r with machine := t } := by
  simp [takeTurn, h]

theorem runTurns_cons {turn : Turn} {turns : List Turn} {r u : HostRun} (h : takeTurn turn r = .next u) :
    runTurns (turn :: turns) r = runTurns turns u := by
  simp [runTurns, h]

theorem runTurns_cons_next {turn : Turn} {turns : List Turn} {r t : HostRun}
    (h : runTurns (turn :: turns) r = .next t) : ∃ u, takeTurn turn r = .next u ∧ runTurns turns u = .next t := by
  unfold runTurns at h
  split at h
  · exact ⟨_, ‹_›, h⟩
  · cases h
  · cases h

/-- The two writes of `key` in either order (30_encoding.md R79). -/
theorem portWrite_key_comm (lo hi : Word) (s : State) :
    portWrite (regOffset .keyHi) hi (portWrite (regOffset .keyLo) lo s) =
      portWrite (regOffset .keyLo) lo (portWrite (regOffset .keyHi) hi s) := by
  cases h : s.busy <;> simp [portWrite, regOffset, regAt, writeReg, flagBusyViolation, h]

/-- The two writes of `cfg` in either order (30_encoding.md R79). -/
theorem portWrite_cfg_comm (m k : Word) (s : State) :
    portWrite (regOffset .cfgProbeCount) k (portWrite (regOffset .cfgBitCount) m s) =
      portWrite (regOffset .cfgBitCount) m (portWrite (regOffset .cfgProbeCount) k s) := by
  cases h : s.busy <;> simp [portWrite, regOffset, regAt, writeReg, flagBusyViolation, h]

/-- Every statement expands to the primitive statements of 30_encoding.md R78 alone. -/
theorem expands_primitive {p : Params} {stmt : Stmt} {ops : List HostOp} (h : Expands p stmt ops) :
    HostOp.require ∉ ops := by
  cases stmt
  case construct keys bitsPerKey =>
    obtain ⟨z, -, -, rfl⟩ := h
    simp [constructOps, filterOps, cfgOps, commandOp, insertOps, keyOps]
  all_goals
    simp only [Expands] at h
    simp [h, commandOp, insertOps, queryOps, keyOps, cfgOps, getbitcountOps]

theorem encoding_append (xs ys : List HostOp) : encoding (xs ++ ys) = encoding xs ++ encoding ys := by
  induction xs with
  | nil => rfl
  | cons op rest ih => cases op <;> simp [encoding, ih]

theorem writesOf_append (xs ys : List Access) : writesOf (xs ++ ys) = writesOf xs ++ writesOf ys := by
  induction xs with
  | nil => rfl
  | cons a rest ih =>
    obtain ⟨kind, width, offset⟩ := a
    cases kind <;> simp [writesOf, ih]

end Sys2Proof.Machine
end

