-- ==== Sys2Proof/Laws/PerInstr.lean ====
section
/-! SUPPORT. Statements made per command: its word. -/

namespace Sys2Proof.Laws.CanonicalWord

/-- The command is well formed, its word is a legal command word (30_encoding.md R70, R72), and the
decoder reads the command from it. -/
def Statement (i : Instr) : Prop :=
  i.wellFormed = true ∧ commandWordWellFormed (encode i) = true ∧ decodeWord (encode i) = .ok i ∧
    decodeTableWord 32 (encode i).toNat = some i

theorem cmdInit : Statement .cmdInit := by unfold Statement; decide
theorem cmdSet : Statement .cmdSet := by unfold Statement; decide
theorem cmdSeal : Statement .cmdSeal := by unfold Statement; decide
theorem cmdTest : Statement .cmdTest := by unfold Statement; decide

end Sys2Proof.Laws.CanonicalWord
end

