-- ==== Sys2Proof/Tests/Slice0.lean ====
section
/-! SUPPORT. Tests whose expected values are the words and vectors of spec/, and for every statement with
hypotheses a concrete witness that meets them together. -/

open Sys2Proof Sys2Proof.Machine

namespace Sys2Proof.Tests

/-- A field of the next state, where there is one. -/
def after {α : Type} (r : Result) (field : State → α) : Option α :=
  match r with
  | .next t => some (field t)
  | .fault _ => none
  | .refused _ => none

/-! ### Well-formedness refuses (30_encoding.md R73, 20_memory.md R52, 00_scope.md R8) -/

theorem test_wf_refuses_zero_field : commandWordWellFormed 0x00000102 = false := by decide
theorem test_wf_refuses_opcode_low : commandWordWellFormed 0x00000000 = false := by decide
theorem test_wf_refuses_opcode_high : commandWordWellFormed 0x00000005 = false := by decide
theorem test_wf_refuses_access_width : Access.wellFormed ⟨.read, 8, 0x08⟩ = false := by decide
theorem test_wf_refuses_access_alignment : Access.wellFormed ⟨.read, 32, 0x09⟩ = false := by decide
theorem test_wf_refuses_access_beyond : Access.wellFormed ⟨.write 0, 32, 0x100⟩ = false := by decide
theorem test_wf_refuses_no_width : Params.legal { Params.default with wordWidth := 0 } = false := by decide
theorem test_wf_refuses_no_words : Params.legal { Params.default with maxWords := 0 } = false := by decide
theorem test_wf_refuses_no_lanes : Params.legal { Params.default with lanes := 0 } = false := by decide
theorem test_wf_refuses_lanes_above_kmax : Params.legal { Params.default with lanes := 256 } = false := by decide

/-! ### Words written out from 30_encoding.md R70, R72 -/

theorem test_decode_init : decodeWord 0b00000000000000000000000000000001 = .ok .cmdInit := by decide
theorem test_decode_set : decodeWord 0b00000000000000000000000000000010 = .ok .cmdSet := by decide
theorem test_decode_seal : decodeWord 0b00000000000000000000000000000011 = .ok .cmdSeal := by decide
theorem test_decode_test : decodeWord 0b00000000000000000000000000000100 = .ok .cmdTest := by decide
/-- F5 and F3 of 95_test_vectors.md section 11. -/
theorem test_decode_refuses : decodeWord 0x80000004 = .error .zeroFieldSet ∧
    decodeWord 0x000000FF = .error (.unknownOpcode 0xFF) := by decide

/-! ### Commands (95_test_vectors.md sections 6 to 8, 11) -/

/-- Staging `(m, k)` after reset. -/
def staged (m k : Word) : State := { State.reset with cfgBitCount := m, cfgProbeCount := k }

/-- The filter `(24, 6)` of sections 7 and 8 with `BITS[0]` given. -/
def filter24 (ph : Phase) (word : Nat) : State :=
  { State.reset with phase := ph, flt := ⟨24, 6, 1, 0⟩, bits := [(0, word)] }

/-- Keys 1 and 999999 of section 1 by their hash, at `(24, 6)`. -/
def probesOfKeyOne : List Word := probesOfHash 0x6573ED81FCDD91D5 24 6
def probesOfKeyMillion : List Word := probesOfHash 0x0DD5831D4F3084B4 24 6

/-- I1. -/
theorem test_init_accepted :
    after (step ((staged 24 6).withFetchWord 32 1)) (fun t => (statusWord t, t.flt.wc, t.bits, t.draws)) =
      some (0x00000012, 1, [(0, 0)], 1) := by decide
/-- I6. -/
theorem test_init_refused :
    after (step ((staged 24 256).withFetchWord 32 1)) (fun t => (statusWord t, t.flt.m, t.draws)) =
      some (0x00000202, 0, 0) := by decide
/-- B2 on B1. -/
theorem test_set_marks_bits :
    after (insertProbes (probesOfHash 0x4E6DEA19408F2696 24 6) (filter24 .build 0x300))
      (fun t => (statusWord t, t.bits)) = some (0x00000012, [(0, 0x82382)]) := by decide
/-- B6. -/
theorem test_set_refused_when_ready :
    after (step ((filter24 .ready 0x300).withFetchWord 32 2)) (fun t => (statusWord t, t.bits)) =
      some (0x00000322, [(0, 0x300)]) := by decide
/-- F8, in `BUILD`. -/
theorem test_seal : after (step ((filter24 .build 0).withFetchWord 32 3)) statusWord = some 0x00000022 := by
  decide
/-- F8, in `READY`: the second `SEAL` is refused. -/
theorem test_seal_twice : after (step ((filter24 .ready 0).withFetchWord 32 3)) statusWord = some 0x00000322 := by
  decide
/-- Q1 and Q4. -/
theorem test_query_answers :
    after (queryProbes probesOfKeyOne (filter24 .ready 0x9C63A2)) statusWord = some 0x00000026 ∧
    after (queryProbes probesOfKeyMillion (filter24 .ready 0x9C63A2)) statusWord = some 0x00000022 := by decide
/-- F9, in `BUILD`. -/
theorem test_query_refused : after (step ((filter24 .build 0).withFetchWord 32 4)) statusWord = some 0x00000312 := by
  decide
/-- F5, in `READY`: the illegal word wins over an accepted `TEST`. -/
theorem test_illegal_word : after (step ((filter24 .ready 0).withFetchWord 32 0x80000004)) statusWord =
    some 0x00000122 := by decide

/-! ### Probes (sections 4, 5), lanes, word width (section 7), capacity (section 10) -/

/-- A7. -/
theorem test_probe_sequence : probesOfHash 0x4E6DEA19408F2696 24 6 = [7, 13, 19, 1, 7, 13] := by decide
/-- M8, M17. -/
theorem test_reduce_extremes : reduce 0xFFFFFFFF 0xFFFFFFFF = 0xFFFFFFFE ∧ reduce 0xFFFFFFFF 65 = 64 := by decide
/-- A6 served by 4 lanes. -/
theorem test_lanes : laneProbes 4 0x6573ED81FCDD91D5 24 6 = [9, 9, 8, 8, 8, 8] := by decide
/-- B8, across two words. -/
theorem test_two_words : setBits 64 [(0, 0), (1, 0)] (probesOfHash 0xE2421C633BE342E8 100 3) =
    some [(0, 0x0000000800000800), (1, 0x0000000001000000)] := by decide
/-- B11: `W` = 8, key 2 then key 3 on key 1's bits. -/
theorem test_byte_words : setBits 8 [(0, 0x82), (1, 0x23), (2, 0x08)] (probesOfHash 0xC298BEEE9E700498 24 6) =
    some [(0, 0xA2), (1, 0x63), (2, 0x9C)] := by decide
/-- C6: the capacity needs its high half. -/
theorem test_capacity_high :
    let s := { State.reset with flt := ⟨0xFFFFFFFF, 6, 67108864, 0⟩ }
    (portRead s 0x30, portRead s 0x2C) = (1, 0) := by decide

/-! ### The port (section 11) -/

/-- H4. -/
theorem test_write_while_busy :
    after (step { justIssued 4 (filter24 .ready 0x9C63A2) with keyLo := 1, pending := [Event.write 0x18 5] })
      (fun t => (t.keyLo, statusWord t)) = some (1, 0x00001021) := by decide
/-- H8. -/
theorem test_write_one_to_clear :
    after (step { filter24 .ready 0x9C63A2 with
                  done := true, hit := true, busyViol := true, pending := [Event.write 0x08 0xFFFFFFFF] })
      statusWord = some 0x00000024 := by decide
/-- H12. -/
theorem test_ctrl_has_one_bit :
    after (step { State.reset with pending := [Event.write 0x04 0xFFFFFFFF] }) (fun t => portRead t 0x04) =
      some 0x00000001 := by decide

/-! ### Sizing (section 3) and the host's statements (section 12) -/

/-- S3. -/
theorem test_size_million : sizeFilter 64 1000000 8 = some ⟨1000000, 8000000, 6, 125000⟩ := by decide +kernel
/-- S21 and S7: the two floors. -/
theorem test_size_floors : sizeFilter 64 2 (mkRat 7 10) = some ⟨2, 1, 1, 1⟩ ∧
    sizeFilter 64 1 (mkRat 3 10) = some ⟨1, 1, 1, 1⟩ := by decide +kernel
/-- S6: the tie goes upward. -/
theorem test_size_tie : sizeFilter 64 10 (mkRat 645 100) = some ⟨10, 65, 5, 2⟩ := by decide +kernel
/-- S1, in exact real arithmetic. -/
theorem test_size_exact : Size 64 3 8 ⟨3, 24, 6, 1⟩ := by
  have h : ⌊((24 : ℕ) : ℝ) / ((3 : ℕ) : ℝ) * Real.log 2 + 1 / 2⌋ = 6 := by
    rw [Int.floor_eq_iff]
    push_cast
    constructor <;> linarith [Real.log_two_gt_d9, Real.log_two_lt_d9]
  exact ⟨by norm_num, by decide, by norm_num, by rw [h]; rfl, by decide⟩

/-- P4, step 3: what `insert` and `query` encode to. -/
theorem test_insert_encodes : encoding (insertOps 0x1122334455667788) =
    [(0x18, 0x55667788), (0x1C, 0x11223344), (0x0C, 2)] := by decide
/-- P1, step 8. -/
theorem test_query_encodes : encoding (queryOps 1) = [(0x18, 1), (0x1C, 0), (0x0C, 4)] := by decide
/-- P1, steps 8 and 11; P3, step 4 (`ERR` is not 0: no answer). -/
theorem test_query_answer : queryAnswer 0x26 = some true ∧ queryAnswer 0x22 = some false ∧
    queryAnswer 0x302 = none := by decide
/-- What comes of a host that runs `ops` from reset by these turns. -/
def runFromReset {α : Type} (turns : List Turn) (ops : List HostOp) (field : HostRun → α) : Option α :=
  match runTurns turns (HostRun.start State.reset ops) with
  | .next r => some (field r)
  | .fault _ => none
  | .refused _ => none

/-- P3, step 2, and the `require` of 40_config_sizing.md R100 after it: the host reads 0x00000202 and gives
up; it has read `STATUS` while busy twice (0x00000001) before. -/
theorem test_build_gives_up :
    runFromReset [.host, .host, .host, .host, .host, .env .engine, .host, .host] (buildOps 0 0 [1])
      (fun r => (r.reads, r.failed, r.program, writesOf r.accesses)) =
      some ([0x202, 1, 1], true, [], [(0x10, 0), (0x14, 0), (0x0C, 1)]) := by decide +kernel
/-- P3, steps 2, 3 and 5: the pseudo-statement has no check and goes on, each command refused. -/
theorem test_construct_goes_on :
    runFromReset (alternating 10) (constructOps 0 0 [1])
      (fun r => (r.reads, r.failed, r.program, writesOf r.accesses)) =
      some ([0x302, 0x302, 0x202], false, [],
        [(0x10, 0), (0x14, 0), (0x0C, 1), (0x18, 1), (0x1C, 0), (0x0C, 2), (0x0C, 3)]) := by decide +kernel

/-! ### Witnesses: every statement's hypotheses are met together -/

/-- `W` = 8, 4 words, `K_MAX` = 3, 2 lanes. -/
def tinyParams : Params := ⟨0x42464331, 8, 4, 3, 2⟩

/-- The filter `(1, 1)`, whose one probe is index 0 for every hash (vectors B7, Q13, Q14). -/
def tiny (ph : Phase) (word : Nat) : State :=
  { State.reset with
    params := tinyParams, cfgBitCount := 1, cfgProbeCount := 1, phase := ph, flt := ⟨1, 1, 1, 0⟩,
    bits := [(0, word)] }

/-- `tiny` with the command word `c` in flight and `q` pending. -/
def tinyBusy (ph : Phase) (word : Nat) (c : Word) (q : List Event) : State :=
  { tiny ph word with busy := true, cmdLatch := c, pending := q }

theorem tiny_inv {ph : Phase} {word : Nat} (hp : ph ≠ .empty) (hw : word < 2) : Inv (tiny ph word) where
  params_legal := show tinyParams.legal = true by decide
  memory_wf := by interval_cases word <;> cases ph <;> decide
  empty_record := fun h => absurd h hp
  record_legal := fun _ => by interval_cases word <;> cases ph <;> decide
  words_present := fun _ => by interval_cases word <;> cases ph <;> decide
  slack_zero := fun _ => by interval_cases word <;> cases ph <;> decide
  busy_not_done := fun h => by cases h
  hit_ready := fun h => by cases h

theorem tinyBusy_inv {ph : Phase} {word : Nat} (hp : ph ≠ .empty) (hw : word < 2) (c : Word)
    (q : List Event) : Inv (tinyBusy ph word c q) where
  params_legal := (tiny_inv hp hw).params_legal
  memory_wf := (tiny_inv hp hw).memory_wf
  empty_record := (tiny_inv hp hw).empty_record
  record_legal := (tiny_inv hp hw).record_legal
  words_present := (tiny_inv hp hw).words_present
  slack_zero := (tiny_inv hp hw).slack_zero
  busy_not_done := fun _ => rfl
  hit_ready := fun h => by cases h

theorem tiny_probes (key seed : DWord) (wc : Word) : probes key ⟨1, 1, wc, seed⟩ = [0] := by
  have : ∀ a : Word, reduce a 1 = 0 := fun a => by
    apply BitVec.eq_of_toNat_eq
    rw [reduce_toNat]
    have := a.isLt
    simp
    omega
  show [reduce _ 1] = [0]
  rw [this]

/-- B7: `SET` of any key in the filter `(1, 1)`. -/
theorem tiny_set : exec .cmdSet (tiny .build 0) = .next (publish .none false (tiny .build 1)) := by
  show insertProbes (probes _ ⟨1, 1, 1, 0⟩) (tiny .build 0) = _
  rw [tiny_probes]
  rfl

/-- After reset, with the command word `c` issued. -/
def resetIssued (c : Word) : State := justIssued c State.reset

/-- No filter, a key in `KEY`. -/
def noFilter : State := { State.reset with keyLo := 1 }

theorem noFilter_inv : Inv noFilter where
  params_legal := by decide
  memory_wf := by decide
  empty_record := fun _ => by decide
  record_legal := fun h => absurd rfl h
  words_present := fun h => absurd rfl h
  slack_zero := fun h => absurd rfl h
  busy_not_done := fun h => by cases h
  hit_ready := fun h => by cases h

theorem witness_DecodeReadsExactlyTheEncodedCommands :
    decode [0x03, 0x00, 0x00, 0x00, 0x07] = .ok (.cmdSeal, [0x07]) ∧
      [0x03, 0x00, 0x00, 0x00, 0x07] = encodeBytes .cmdSeal ++ [(0x07 : Byte)] := by decide

theorem witness_StepRunsTheDecodedCommand :
    EngineNext (resetIssued 4) [] ∧ (resetIssued 4).busy = true ∧
      decodeWord (resetIssued 4).cmdLatch = .ok .cmdTest := ⟨.inl ⟨rfl, rfl⟩, rfl, rfl⟩

/-- Both clauses at the ends of their ranges. -/
theorem witness_IllegalWordsCompleteRefused_zero_field :
    EngineNext (resetIssued 0x00000102) [] ∧ (resetIssued 0x00000102).busy = true ∧
      (resetIssued 0x00000102).cmdLatch.extractLsb' 8 24 ≠ 0 := ⟨.inl ⟨rfl, rfl⟩, rfl, by decide⟩
theorem witness_IllegalWordsCompleteRefused_low :
    EngineNext (resetIssued 0) [] ∧ (resetIssued 0).busy = true ∧
      ((resetIssued 0).cmdLatch.extractLsb' 0 8).toNat < 1 := ⟨.inl ⟨rfl, rfl⟩, rfl, by decide⟩
theorem witness_IllegalWordsCompleteRefused_high :
    EngineNext (resetIssued 5) [] ∧ (resetIssued 5).busy = true ∧
      4 < ((resetIssued 5).cmdLatch.extractLsb' 0 8).toNat := ⟨.inl ⟨rfl, rfl⟩, rfl, by decide⟩
theorem witness_IllegalWordsCompleteRefused_legal :
    EngineNext (resetIssued 4) [] ∧ (resetIssued 4).busy = true ∧
      ((resetIssued 4).cmdLatch.extractLsb' 8 24 = 0 ∧
        1 ≤ ((resetIssued 4).cmdLatch.extractLsb' 0 8).toNat ∧
        ((resetIssued 4).cmdLatch.extractLsb' 0 8).toNat ≤ 4) ∧
      ∃ t, step (resetIssued 4) = .next t := ⟨.inl ⟨rfl, rfl⟩, rfl, by decide, _, rfl⟩

/-- Every branch of the order of checks is taken by some completing state. -/
theorem witness_ChecksComeInOrder_init_accepted :
    EngineNext (tinyBusy .ready 1 1 []) [] ∧ (tinyBusy .ready 1 1 []).busy = true ∧
      ∃ t, step (tinyBusy .ready 1 1 []) = .next t ∧ t.err = .none := ⟨.inl ⟨rfl, rfl⟩, rfl, _, rfl, rfl⟩
theorem witness_ChecksComeInOrder_init_refused :
    EngineNext (resetIssued 1) [] ∧ (resetIssued 1).busy = true ∧
      ∃ t, step (resetIssued 1) = .next t ∧ t.err = .cfg := ⟨.inl ⟨rfl, rfl⟩, rfl, _, rfl, rfl⟩
theorem witness_ChecksComeInOrder_seal :
    EngineNext (tinyBusy .build 0 3 []) [] ∧ (tinyBusy .build 0 3 []).busy = true ∧
      ∃ t, step (tinyBusy .build 0 3 []) = .next t ∧ t.err = .none := ⟨.inl ⟨rfl, rfl⟩, rfl, _, rfl, rfl⟩
theorem witness_ChecksComeInOrder_phase :
    EngineNext (resetIssued 4) [] ∧ (resetIssued 4).busy = true ∧
      ∃ t, step (resetIssued 4) = .next t ∧ t.err = .phase := ⟨.inl ⟨rfl, rfl⟩, rfl, _, rfl, rfl⟩
theorem witness_ChecksComeInOrder_illegal :
    EngineNext (tinyBusy .ready 1 0x80000004 []) [] ∧ (tinyBusy .ready 1 0x80000004 []).busy = true ∧
      ∃ t, step (tinyBusy .ready 1 0x80000004 []) = .next t ∧ t.err = .illegal :=
  ⟨.inl ⟨rfl, rfl⟩, rfl, _, rfl, rfl⟩

theorem witness_WriteToCmdIssues_idle :
    (tiny .build 0).busy = false ∧
      { tiny .build 0 with pending := [Event.write 0x0C 0xFFFFFFFF] }.pending =
        Event.write 0x0C 0xFFFFFFFF :: [] := ⟨rfl, rfl⟩
theorem witness_WriteToCmdIssues_busy :
    (tinyBusy .build 0 2 [Event.write 0x0C 1]).busy = true ∧
      (tinyBusy .build 0 2 [Event.write 0x0C 1]).pending = Event.write 0x0C 1 :: [] := ⟨rfl, rfl⟩

theorem witness_IdleKeepsEverything :
    EngineNext { tiny .ready 1 with pending := [.engine, .rst] } [.rst] ∧ (tiny .ready 1).busy = false :=
  ⟨.inr rfl, rfl⟩

theorem witness_CommandInFlightCompletes :
    Inv (tinyBusy .build 0 2 [Event.write 0x18 5, Event.read 0x08]) ∧
      (tinyBusy .build 0 2 [Event.write 0x18 5, Event.read 0x08]).busy = true ∧
      Event.rst ∉ (tinyBusy .build 0 2 [Event.write 0x18 5, Event.read 0x08]).pending :=
  ⟨tinyBusy_inv (by decide) (by decide) _ _, rfl, by decide⟩

theorem witness_ReadsHaveNoSideEffect :
    (0xFC % 4 = 0 ∧ 0xFC < 0x100) ∧
      (tinyBusy .build 0 2 [Event.read 0xFC]).pending = Event.read 0xFC :: [] := ⟨by decide, rfl⟩

/-- The lowest and the highest reserved offset. -/
theorem witness_ReservedReadsZeroIgnoresWrites :
    (0x44 % 4 = 0 ∧ 0x44 ≤ 0x44 ∧ 0x44 < 0x100) ∧ (0xFC % 4 = 0 ∧ 0x44 ≤ 0xFC ∧ 0xFC < 0x100) ∧
      (tiny .ready 1).busy = false ∧
      { tiny .ready 1 with pending := [Event.write 0xFC 1] }.pending = Event.write 0xFC 1 :: [] := by decide
theorem witness_ReservedReadsZeroIgnoresWrites_bits :
    (0xFFFFFFFE : Word).getLsbD 0 = (0 : Word).getLsbD 0 ∧
      (0xFFFFEFFD : Word).getLsbD 1 = (0 : Word).getLsbD 1 ∧
      (0xFFFFEFFD : Word).getLsbD 12 = (0 : Word).getLsbD 12 := by decide

theorem witness_StatusFieldsAndWriteOneToClear :
    (tiny .ready 1).busy = false ∧
      { tiny .ready 1 with pending := [Event.write 0x08 0x1002] }.pending = Event.write 0x08 0x1002 :: [] :=
  ⟨rfl, rfl⟩

theorem witness_StagingWrites :
    (tiny .ready 1).busy = false ∧ (tinyBusy .ready 1 4 []).busy = true ∧
      { tiny .ready 1 with pending := [Event.write 0x10 0] }.pending = Event.write 0x10 0 :: [] ∧
      { tiny .ready 1 with pending := [Event.write 0x14 256] }.pending = Event.write 0x14 256 :: [] ∧
      (tinyBusy .ready 1 4 [Event.write 0x10 0]).pending = Event.write 0x10 0 :: [] ∧
      (tinyBusy .ready 1 4 [Event.write 0x14 0]).pending = Event.write 0x14 0 :: [] :=
  ⟨rfl, rfl, rfl, rfl, rfl, rfl⟩

theorem witness_KeyAndControlWrites :
    (tiny .ready 1).busy = false ∧
      { tiny .ready 1 with pending := [Event.write 0x18 7] }.pending = Event.write 0x18 7 :: [] ∧
      { tiny .ready 1 with pending := [Event.write 0x1C 7] }.pending = Event.write 0x1C 7 :: [] ∧
      { tiny .ready 1 with pending := [Event.write 0x04 1] }.pending = Event.write 0x04 1 :: [] :=
  ⟨rfl, rfl, rfl, rfl⟩

theorem witness_WrittenValueReadsBackAtOnce :
    { tiny .ready 1 with pending := [Event.write 0x1C 7, Event.read 0x1C] }.busy = false ∧
      { tiny .ready 1 with pending := [Event.write 0x1C 7, Event.read 0x1C] }.pending =
        Event.write (regOffset .keyHi) 7 :: Event.read (regOffset .keyHi) :: [] := ⟨rfl, rfl⟩

theorem witness_ReadOnlyRegistersIgnoreWrites :
    { tiny .ready 1 with pending := [Event.write 0x40 7] }.busy = false ∧
      { tiny .ready 1 with pending := [Event.write 0x40 7] }.pending =
        Event.write (regOffset .paramLanes) 7 :: [] := ⟨rfl, rfl⟩

/-- Each way of being malformed. -/
theorem witness_MalformedAccessHasNoEffect :
    (Access.mk .read 8 0x08).width ≠ 32 ∧ (Access.mk (.write 1) 32 0x0E).offset % 4 ≠ 0 ∧
      0x100 ≤ (Access.mk .read 32 0x100).offset ∧
      { tiny .ready 1 with pending := [.access ⟨.read, 8, 0x08⟩] }.pending = .access ⟨.read, 8, 0x08⟩ :: [] :=
  by decide

theorem witness_WriteWhileBusyIsDroppedAndFlagged :
    (tinyBusy .build 0 2 [Event.write 0xFC 1]).busy = true ∧ 0xFC % 4 = 0 ∧ 0xFC < 0x100 ∧
      (tinyBusy .build 0 2 [Event.write 0xFC 1]).pending = Event.write 0xFC 1 :: [] := by decide
/-- Its sticky clause: the flag is cleared by a write of bit 12. -/
theorem witness_WriteWhileBusyIsDroppedAndFlagged_cleared :
    ∃ t, step { tiny .build 0 with busyViol := true, pending := [Event.write 0x08 0x1000] } = .next t ∧
      { tiny .build 0 with busyViol := true, pending := [Event.write 0x08 0x1000] }.busyViol = true ∧
      t.busyViol = false := ⟨_, rfl, rfl, rfl⟩
theorem witness_WriteWhileBusyIsDroppedAndFlagged_completes :
    ∃ t, complete (tinyBusy .build 0 3 []) = .next t := ⟨_, rfl⟩

theorem witness_BusyShowsTheStateBeforeTheCommand :
    Inv (tinyBusy .build 0 2 [Event.read 0x28]) ∧ (tinyBusy .build 0 2 [Event.read 0x28]).busy = true ∧
      ∃ t, step (tinyBusy .build 0 2 [Event.read 0x28]) = .next t ∧ t.busy = true :=
  ⟨tinyBusy_inv (by decide) (by decide) _ _, rfl, _, rfl, rfl⟩

theorem witness_DoneIsTheOnePendingBit_completion :
    isCompletion (tinyBusy .build 0 3 []) = true ∧ (tinyBusy .build 0 3 []).done = false ∧
      ∃ t, step (tinyBusy .build 0 3 []) = .next t ∧ t.done = true := ⟨rfl, rfl, _, rfl, rfl⟩
/-- `DONE` dropped by a write of bit 1, by an issue and by reset. -/
theorem witness_DoneIsTheOnePendingBit_dropped :
    (∃ t, step { tiny .ready 1 with done := true, pending := [Event.write 0x08 2] } = .next t ∧
      TakesWrite { tiny .ready 1 with done := true, pending := [Event.write 0x08 2] } 0x08 2 ∧
      (2 : Word).getLsbD 1 = true ∧ t.done = false) ∧
    (∃ t, step { tiny .ready 1 with done := true, pending := [Event.write 0x0C 4] } = .next t ∧
      TakesWrite { tiny .ready 1 with done := true, pending := [Event.write 0x0C 4] } 0x0C 4 ∧ t.done = false) ∧
    (∃ t, step { tiny .ready 1 with done := true, pending := [.rst] } = .next t ∧
      takesReset { tiny .ready 1 with done := true, pending := [.rst] } = true ∧ t.done = false) :=
  ⟨⟨_, rfl, ⟨rfl, _, rfl⟩, by decide, rfl⟩, ⟨_, rfl, ⟨rfl, _, rfl⟩, rfl⟩, ⟨_, rfl, rfl, rfl⟩⟩

theorem witness_ParametersNeverChange :
    ∃ t, step { tiny .ready 1 with pending := [.rst] } = .next t := ⟨_, rfl⟩

theorem witness_ReduceIsMultiplyHigh : 1 ≤ (1 : Word).toNat := by decide

/-- `m` least, and a power of two at both ends of its range. -/
theorem witness_LawsOfReduce :
    1 ≤ (1 : Word).toNat ∧ (1 : Word).toNat = 2 ^ 0 ∧ 1 ≤ (0x80000000 : Word).toNat ∧
      (0x80000000 : Word).toNat = 2 ^ 31 ∧ (0 : Word).toNat ≤ (1 : Word).toNat ∧ 0 < (1 : Word).toNat := by decide

/-- The last probe of A7. -/
theorem witness_ProbesHaveTheClosedForm : 5 < 6 ∧ (probesOfHash 0x4E6DEA19408F2696 24 6)[5]? = some 13 := by decide

theorem witness_LanesMakeTheSameProbes : 1 ≤ 1 ∧ 1 ≤ 4 := by decide

theorem witness_ProbesStayInTheArray :
    Inv (tiny .ready 1) ∧ (tiny .ready 1).phase ≠ .empty ∧ (0 : Word) ∈ probes 7 (tiny .ready 1).flt :=
  ⟨tiny_inv (by decide) (by decide), by decide, by
    rw [show (tiny .ready 1).flt = ⟨1, 1, 1, 0⟩ from rfl, tiny_probes]; decide⟩

theorem witness_ProbeOrderIsUnobservable :
    1 ≤ 8 ∧ Memory.wf 8 4 [(0, 1), (1, 0)] = true ∧ [(0 : Word), 9].Perm [9, 0] ∧
      ∀ i ∈ [(0 : Word), 9], (bitAt 8 [(0, 1), (1, 0)] i.toNat).isSome = true :=
  ⟨by decide, by decide, List.Perm.swap _ _ _,
    by intro i hi; simp only [List.mem_cons, List.not_mem_nil, or_false] at hi; rcases hi with rfl | rfl <;> decide⟩

/-- B10 and B11: the same array in words of 32 and of 8 bits. -/
theorem witness_HitDoesNotDependOnTheWordWidth :
    1 ≤ 32 ∧ 1 ≤ 8 ∧ 23 < 24 ∧
    (∀ i ∈ [(9 : Word), 8], bitAt 32 [(0, 0x9C63A2)] i.toNat = bitAt 8 [(0, 0xA2), (1, 0x63), (2, 0x9C)] i.toNat) ∧
      (∃ out, setBits 32 [(0, 0x9C63A2)] [9, 8] = some out) ∧
      (∃ out, setBits 8 [(0, 0xA2), (1, 0x63), (2, 0x9C)] [9, 8] = some out) ∧
      bitAt 32 [(0, 0x9C63A2)] 23 = bitAt 8 [(0, 0xA2), (1, 0x63), (2, 0x9C)] 23 :=
  ⟨by decide, by decide, by decide, by intro i hi; simp only [List.mem_cons, List.not_mem_nil, or_false] at hi; rcases hi with rfl | rfl <;> decide,
    ⟨[(0, 0x9C63A2)], by decide⟩, ⟨[(0, 0xA2), (1, 0x63), (2, 0x9C)], by decide⟩, by decide⟩

theorem witness_ArrayReadsAfterWrites : memRead [(0, 3)] 0 = some 3 := rfl

/-- `k` = `K_MAX` and `wc` = `MAX_WORDS` are legal; one more of either, or a 0, is not. -/
theorem witness_InitCreatesTheFilterOrRefuses :
    (1 ≤ (32 : Word).toNat ∧ 1 ≤ (3 : Word).toNat ∧ (3 : Word).toNat ≤ tinyParams.kMax.toNat ∧
      ((32 : Word).toNat + tinyParams.wordWidth.toNat - 1) / tinyParams.wordWidth.toNat ≤
        tinyParams.maxWords.toNat) ∧
    ¬ ((4 : Word).toNat ≤ tinyParams.kMax.toNat) ∧
    ¬ (((33 : Word).toNat + tinyParams.wordWidth.toNat - 1) / tinyParams.wordWidth.toNat ≤
        tinyParams.maxWords.toNat) ∧ ¬ (1 ≤ (0 : Word).toNat) := by decide

theorem witness_SealEndsConstruction : (tiny .build 0).phase = .build ∧ (tiny .ready 1).phase ≠ .build ∧
    State.reset.phase ≠ .build := by decide

theorem witness_SetMarksExactlyTheProbedBits :
    Inv (tiny .build 0) ∧ (tiny .build 0).phase = .build := ⟨tiny_inv (by decide) (by decide), rfl⟩

theorem witness_TestAnswersTheAndOfTheProbedBits :
    Inv (tiny .ready 1) ∧ (tiny .ready 1).phase = .ready := ⟨tiny_inv (by decide) (by decide), rfl⟩

theorem witness_PhaseTableIsComplete :
    Inv (tiny .build 0) ∧ (tiny .build 0).phase = .build ∧ (tiny .build 0).phase ≠ .ready ∧
      Inv (tiny .ready 1) ∧ (tiny .ready 1).phase = .ready ∧ (tiny .ready 1).phase ≠ .build :=
  ⟨tiny_inv (by decide) (by decide), rfl, by decide, tiny_inv (by decide) (by decide), rfl, by decide⟩
theorem witness_PhaseTableIsComplete_illegal :
    Inv (tinyBusy .ready 1 0 []) ∧ EngineNext (tinyBusy .ready 1 0 []) [] ∧
      (tinyBusy .ready 1 0 []).busy = true ∧ ∀ i, decodeWord (tinyBusy .ready 1 0 []).cmdLatch ≠ .ok i :=
  ⟨tinyBusy_inv (by decide) (by decide) _ _, .inl ⟨rfl, rfl⟩, rfl, fun i => by cases i <;> decide⟩

theorem witness_RefusalsArePrecise :
    ∃ t, complete (tinyBusy .ready 1 3 []) = .next t ∧ t.err ≠ .none := ⟨_, rfl, by decide⟩

/-- Each of the four commands answers. -/
theorem witness_CommandsLeaveTheHostsRegisters :
    (∃ t, exec .cmdInit (tiny .ready 1) = .next t) ∧ (∃ t, exec .cmdSet (tiny .build 0) = .next t) ∧
      (∃ t, exec .cmdSeal (tiny .build 0) = .next t) ∧ ∃ t, exec .cmdTest (tiny .build 0) = .next t :=
  ⟨⟨_, rfl⟩, ⟨_, tiny_set⟩, ⟨_, rfl⟩, ⟨_, rfl⟩⟩

theorem witness_StagingDoesNotTouchTheFilter :
    (Instr.cmdSet = .cmdSet ∨ Instr.cmdSet = .cmdSeal ∨ Instr.cmdSet = .cmdTest) ∧
      ∃ t, exec .cmdSet (tiny .build 0) = .next t := ⟨.inl rfl, _, tiny_set⟩

theorem witness_SettingAKeyTwiceChangesNothing :
    Inv (tiny .build 0) ∧ (tiny .build 0).phase = .build := ⟨tiny_inv (by decide) (by decide), rfl⟩

theorem witness_InsertionOrderIsUnobservable :
    Inv (tiny .build 0) ∧ (tiny .build 0).phase = .build ∧ [(1 : DWord), 2, 1].Perm [1, 1, 2] :=
  ⟨tiny_inv (by decide) (by decide), rfl, by decide⟩

theorem witness_StepKeepsTheInvariant :
    Inv (tinyBusy .build 0 3 []) ∧ ∃ t, step (tinyBusy .build 0 3 []) = .next t :=
  ⟨tinyBusy_inv (by decide) (by decide) _ _, _, rfl⟩

theorem witness_NothingStopsTheMachine : Inv (tinyBusy .build 0 2 []) :=
  tinyBusy_inv (by decide) (by decide) _ _

/-- Within `READY`, and out of `BUILD`. -/
theorem witness_FilterLifecycle :
    (∃ t, step (tinyBusy .ready 1 3 []) = .next t ∧ (tinyBusy .ready 1 3 []).phase = .ready ∧ t.phase = .ready) ∧
      ∃ t, step (tinyBusy .build 1 3 []) = .next t ∧ takesReset (tinyBusy .build 1 3 []) = false ∧
        acceptsInit (tinyBusy .build 1 3 []) = false ∧ t.phase ≠ (tinyBusy .build 1 3 []).phase :=
  ⟨⟨_, rfl, rfl, rfl⟩, _, rfl, rfl, by decide, by decide⟩
theorem witness_FilterLifecycle_empty :
    ∃ t, step { tiny .ready 1 with pending := [.rst] } = .next t ∧ t.phase = .empty := ⟨_, rfl, rfl⟩

theorem witness_ArrayOnlyGrows :
    Inv (tinyBusy .ready 1 3 []) ∧ (∃ t, step (tinyBusy .ready 1 3 []) = .next t ∧ t.phase = .ready) ∧
      takesReset (tinyBusy .ready 1 3 []) = false ∧ acceptsInit (tinyBusy .ready 1 3 []) = false ∧
      bitAt 8 (tinyBusy .ready 1 3 []).bits 0 = some true ∧ 1 ≤ 7 ∧ 7 < 1 * 8 :=
  ⟨tinyBusy_inv (by decide) (by decide) _ _, ⟨_, rfl, rfl⟩, rfl, by decide, by decide, by decide, by decide⟩

theorem witness_OneSeedDrawPerAcceptedInit :
    (∃ t, step (tinyBusy .ready 1 1 []) = .next t) ∧ acceptsInit (tinyBusy .ready 1 1 []) = true ∧
      (∃ t, step (resetIssued 1) = .next t) ∧ acceptsInit (resetIssued 1) = false ∧
      takesReset (resetIssued 1) = false := ⟨⟨_, rfl⟩, by decide, ⟨_, rfl⟩, by decide, rfl⟩

theorem witness_ReadBackRelations :
    Inv (tinyBusy .ready 1 3 []) ∧ (tinyBusy .ready 1 3 []).phase ≠ .empty ∧
      (∃ t, step (tinyBusy .ready 1 3 []) = .next t) ∧ takesReset (tinyBusy .ready 1 3 []) = false ∧
      acceptsInit (tinyBusy .ready 1 3 []) = false :=
  ⟨tinyBusy_inv (by decide) (by decide) _ _, by decide, ⟨_, rfl⟩, rfl, by decide⟩
theorem witness_ReadBackRelations_empty : Inv noFilter ∧ noFilter.phase = .empty := ⟨noFilter_inv, rfl⟩

/-- A reset while a command is in flight. -/
theorem witness_ResetEvent : (tinyBusy .build 1 2 [.rst, .engine]).pending = .rst :: [.engine] ∧
    ∃ t, step (tinyBusy .build 1 2 [.rst, .engine]) = .next t ∧ t.phase = .empty := ⟨rfl, _, rfl, rfl⟩

/-- In `EMPTY` with another seed, array and latch; and in `READY` with another word not in use. -/
theorem witness_UnspecifiedValuesAreUnobservable :
    Inv noFilter ∧ Inv { noFilter with flt := ⟨0, 0, 0, 5⟩, bits := [(3, 9)], cmdLatch := 2 } ∧
      SameButUnspecified noFilter { noFilter with flt := ⟨0, 0, 0, 5⟩, bits := [(3, 9)], cmdLatch := 2 } ∧
      ∃ t, step noFilter = .next t :=
  ⟨noFilter_inv, ⟨by decide, by decide, fun _ => by decide, fun h => absurd rfl h, fun h => absurd rfl h,
    fun h => absurd rfl h, (by intro h; cases h), (by intro h; cases h)⟩,
    ⟨rfl, fun h => absurd rfl h, fun h => by cases h⟩, _, rfl⟩
theorem witness_UnspecifiedValuesAreUnobservable_filter :
    SameButUnspecified (tiny .ready 1) { tiny .ready 1 with bits := [(0, 1), (2, 9)], cmdLatch := 2 } :=
  ⟨rfl, fun _ => ⟨rfl, by decide⟩, fun h => by cases h⟩

/-- `SET`, then a `SEAL` and its completion, then the `TEST` of the same key. -/
theorem witness_NoFalseNegatives :
    let s := { tiny .build 0 with pending := [Event.write 0x0C 3, .engine] }
    let s' := publish .none false { tiny .build 1 with pending := [Event.write 0x0C 3, .engine] }
    Inv s ∧ s.phase = .build ∧ exec .cmdSet s = .next s' ∧
      ∃ t, Host.Core.run core 2 s' = .next t ∧ t.draws = s'.draws ∧ t.phase = .ready ∧
        keyOperand t = keyOperand s :=
  ⟨⟨(tiny_inv (ph := .build) (word := 0) (by decide) (by decide)).params_legal,
    (tiny_inv (ph := .build) (word := 0) (by decide) (by decide)).memory_wf, (by intro h; cases h),
    (tiny_inv (ph := .build) (word := 0) (by decide) (by decide)).record_legal,
    (tiny_inv (ph := .build) (word := 0) (by decide) (by decide)).words_present,
    (tiny_inv (ph := .build) (word := 0) (by decide) (by decide)).slack_zero, (by intro h; cases h),
    (by intro h; cases h)⟩, rfl, by
      show insertProbes (probes _ ⟨1, 1, 1, 0⟩) _ = _
      rw [tiny_probes]
      rfl, _, rfl, rfl, rfl, rfl⟩

/-- The run of one step in which `SEAL` completes. -/
theorem witness_EmptyFilterNeverMatches :
    Inv (tinyBusy .build 0 3 []) ∧ (tinyBusy .build 0 3 []).phase ≠ .empty ∧ NothingSet (tinyBusy .build 0 3 []) ∧
      (∀ k < 1, ∀ u, Host.Core.run core k (tinyBusy .build 0 3 []) = .next u → acceptsSet u = false) ∧
      ∃ t, Host.Core.run core 1 (tinyBusy .build 0 3 []) = .next t ∧
        t.draws = (tinyBusy .build 0 3 []).draws ∧ t.phase = .ready :=
  ⟨tinyBusy_inv (by decide) (by decide) _ _, by decide, by unfold NothingSet; decide,
    fun k hk u hu => by
      obtain rfl : k = 0 := by omega
      cases hu
      decide,
    _, rfl, rfl, rfl⟩

theorem witness_TestAnswersRepeat :
    Inv (tinyBusy .ready 1 3 []) ∧ (tinyBusy .ready 1 3 []).phase = .ready ∧
      ∃ t, Host.Core.run core 1 (tinyBusy .ready 1 3 []) = .next t ∧
        t.draws = (tinyBusy .ready 1 3 []).draws ∧ t.phase = .ready ∧
        keyOperand t = keyOperand (tinyBusy .ready 1 3 []) :=
  ⟨tinyBusy_inv (by decide) (by decide) _ _, rfl, _, rfl, rfl, rfl, rfl⟩

/-- S3; and S1 as a rational `bitsPerKey`. -/
theorem witness_SizingAgreesWithTheRealFormula :
    (0 : ℝ) < 8 ∧ sizeFilter 64 1000000 8 = some ⟨1000000, 8000000, 6, 125000⟩ ∧
      Size 64 3 ((8 : ℚ) : ℝ) ⟨3, 24, 6, 1⟩ ∧ 24 < 2 ^ 32 :=
  ⟨by norm_num, test_size_million, by exact_mod_cast test_size_exact, by decide⟩

/-- S1, `m` no multiple of `W`, its budget the integer 24; and a `bitsPerKey` above it. -/
theorem witness_CapacityAgainstTheBudget :
    1 ≤ 64 ∧ Size 64 3 8 ⟨3, 24, 6, 1⟩ ∧ (8 : ℝ) ≤ 8 + 1 / 8 ∧ Size 64 3 (8 + 1 / 8) ⟨3, 24, 6, 1⟩ ∧
      ¬ 64 ∣ 24 ∧ ((3 : ℕ) : ℝ) * 8 = ((24 : ℕ) : ℝ) :=
  ⟨by decide, test_size_exact, by norm_num,
    ⟨by norm_num, by decide, by norm_num, test_size_exact.2.2.2.1, by decide⟩, by decide, by norm_num⟩

theorem witness_FeasibleSizingIsAccepted :
    Size (staged 24 6).params.wordWidth.toNat 3 8 ⟨3, 24, 6, 1⟩ ∧
      Sizing.feasible (staged 24 6).params ⟨3, 24, 6, 1⟩ = true ∧
      (staged 24 6).cfgBitCount = BitVec.ofNat 32 24 ∧ (staged 24 6).cfgProbeCount = BitVec.ofNat 32 6 :=
  ⟨test_size_exact, by decide, rfl, rfl⟩

/-- While busy and when not. -/
theorem witness_WaitReadsStatusUntilNotBusy :
    (HostRun.start (tinyBusy .build 0 2 []) [.wait]).program = .wait :: [] ∧
      (HostRun.start (tinyBusy .build 0 2 []) [.wait]).machine.busy = true ∧
      (HostRun.start (tiny .build 0) [.wait]).program = .wait :: [] ∧
      (HostRun.start (tiny .build 0) [.wait]).machine.busy = false := ⟨rfl, rfl, rfl, rfl⟩

/-- The engine's turns and a reset among the host's. -/
theorem witness_HostWritesAreTheEncoding :
    ∃ r, runTurns [.host, .env .rst, .host, .env .engine, .host]
        (HostRun.start (tiny .ready 1) (keyOps 7 ++ [commandOp .cmdTest, .wait])) = .next r ∧ r.failed = false :=
  ⟨_, rfl, rfl⟩

/-- `Size` of one key at one bit per key, `W` = 8. -/
theorem size_one : Size 8 1 1 ⟨1, 1, 1, 1⟩ := by
  have h : ⌊((1 : ℕ) : ℝ) / ((1 : ℕ) : ℝ) * Real.log 2 + 1 / 2⌋ = 1 := by
    rw [Int.floor_eq_iff]
    push_cast
    constructor <;> linarith [Real.log_two_gt_d9, Real.log_two_lt_d9]
  exact ⟨by norm_num, by decide, by norm_num, by rw [h]; rfl, by decide⟩

/-- The filter `(1, 1)` for one key at one bit per key, where the empty filter `(1, 1)` was: the
pseudo-statement and the procedure. -/
theorem witness_ConstructBuildsTheFilter :
    Inv (tiny .ready 0) ∧ (tiny .ready 0).busy = false ∧
      (∃ z, Size (tiny .ready 0).params.wordWidth.toNat [(7 : DWord)].length 1 z ∧
        z.feasible (tiny .ready 0).params = true) ∧
      Expands (tiny .ready 0).params (.construct [7] 1) (constructOps 1 1 [7]) ∧
      Builds (tiny .ready 0).params [7] 1 (buildOps 1 1 [7]) ∧
      hostAndEngine (alternating (buildOps 1 1 [7]).length) = true :=
  ⟨tiny_inv (by decide) (by decide), rfl, ⟨_, size_one, by decide⟩, ⟨_, size_one, by decide, rfl⟩,
    ⟨_, [7], size_one, by decide, .refl _, rfl⟩, by decide⟩

/-- One bit more than the array has. -/
theorem witness_ConstructGivesUpWhenInitIsRefused :
    Inv (tiny .ready 1) ∧ (tiny .ready 1).busy = false ∧
      ¬ (1 ≤ (33 : Word).toNat ∧ 1 ≤ (3 : Word).toNat ∧ (3 : Word).toNat ≤ (tiny .ready 1).params.kMax.toNat ∧
        ((33 : Word).toNat + (tiny .ready 1).params.wordWidth.toNat - 1) /
          (tiny .ready 1).params.wordWidth.toNat ≤ (tiny .ready 1).params.maxWords.toNat) ∧
      hostAndEngine (alternating (buildOps 33 3 [7]).length) = true :=
  ⟨tiny_inv (by decide) (by decide), rfl, by decide, by decide⟩

end Sys2Proof.Tests
end

/-! SUPPORT and PROOFS. The statements about the state: what the window reads and what its writes do, the
invariant of every step, and what the unspecified values cannot show. -/

namespace Sys2Proof.Machine

/-! ### The register port -/

theorem regAt_eq_some_iff {offset : Nat} {r : Reg} : regAt offset = some r ↔ offset = regOffset r := by
  constructor
  · unfold regAt
    split <;> rintro ⟨⟩ <;> rfl
  · rintro rfl
    cases r <;> rfl

@[simp] theorem regAt_regOffset (r : Reg) : regAt (regOffset r) = some r := regAt_eq_some_iff.mpr rfl

theorem regOffset_lt (r : Reg) : regOffset r < 0x44 := by
  cases r <;> decide

/-- The offsets from 0x44 on are reserved (10_state.md R13). -/
theorem regAt_of_reserved {offset : Nat} (h : 0x44 ≤ offset) : regAt offset = none := by
  cases hr : regAt offset with
  | none => rfl
  | some r =>
    have hlt := regOffset_lt r
    rw [← regAt_eq_some_iff.mp hr] at hlt
    omega

theorem portRead_congr {s t : State} (h : ∀ r, readReg t r = readReg s r) (offset : Nat) :
    portRead t offset = portRead s offset := by
  unfold portRead
  split
  · exact h _
  · rfl

theorem portRead_withPending (s : State) (q : List Event) (offset : Nat) :
    portRead { s with pending := q } offset = portRead s offset :=
  portRead_congr (fun r => by cases r <;> rfl) offset

/-- A write to a read-only register is ignored (10_state.md R12). -/
theorem writeReg_of_readOnly {r : Reg}
    (hr : r = .id ∨ r = .fltBitCount ∨ r = .fltProbeCount ∨ r = .fltWordCount ∨ r = .fltCapacityLo ∨
      r = .fltCapacityHi ∨ r = .paramWordWidth ∨ r = .paramMaxWords ∨ r = .paramKMax ∨ r = .paramLanes)
    (v : Word) (s : State) : writeReg r v s = s := by
  rcases hr with rfl | rfl | rfl | rfl | rfl | rfl | rfl | rfl | rfl | rfl <;> rfl

/-- A well-formed write, as a step. -/
theorem step_write {s : State} {offset : Nat} {v : Word} {rest : List Event} (hmul : offset % 4 = 0)
    (hlt : offset < 0x100) (hp : s.pending = Event.write offset v :: rest) :
    step s = .next { portWrite offset v { s with pending := rest } with port := .written } := by
  rw [step_access hp]
  simp [portAccess, Access.wellFormed, hmul, hlt]

/-- A write to a register with no command in flight, as a step. -/
theorem step_writeReg {s : State} {r : Reg} {v : Word} {rest : List Event} (hb : s.busy = false)
    (hp : s.pending = Event.write (regOffset r) v :: rest) :
    step s = .next { writeReg r v { s with pending := rest } with port := .written } := by
  rw [step_access hp]
  simp [portAccess, regOffset_wellFormed, portWrite, hb]

/-- Two values that a register takes alike make the same step, busy or not. -/
theorem step_write_congr {r : Reg} {v w : Word} (h : ∀ u, writeReg r v u = writeReg r w u) (s : State)
    (rest : List Event) :
    step { s with pending := Event.write (regOffset r) v :: rest } =
      step { s with pending := Event.write (regOffset r) w :: rest } := by
  rw [step_access rfl, step_access rfl]
  simp [portAccess, regOffset_wellFormed, portWrite, h]

/-! ### `CTRL` and `STATUS` bit by bit -/

theorem ctrlWord_getLsbD (s : State) {b : Nat} (hb : 1 ≤ b) : (ctrlWord s).getLsbD b = false :=
  (BitVec.getLsbD_append (x := 0#31)).trans (by simp [show b ≠ 0 by omega])

/-- Which field of `STATUS` a bit belongs to (10_state.md R15). -/
theorem statusWord_getLsbD (s : State) (b : Nat) :
    (statusWord s).getLsbD b =
      if b = 0 then s.busy else if b = 1 then s.done else if b = 2 then s.hit
      else if 4 ≤ b ∧ b < 6 then (phaseNumber s.phase).getLsbD (b - 4)
      else if 8 ≤ b ∧ b < 12 then (errNumber s.err).getLsbD (b - 8)
      else if b = 12 then s.busyViol else false := by
  refine (BitVec.getLsbD_append (y := BitVec.ofBool s.busy)).trans ?_
  simp only [BitVec.getLsbD_append, BitVec.getLsbD_ofBool]
  rcases Nat.lt_or_ge b 13 with hb | hb
  · interval_cases b <;> simp
  · simp only [BitVec.getLsbD_zero]
    repeat rw [if_neg (by omega)]

theorem statusWord_reserved (s : State) {b : Nat} (hb : b = 3 ∨ b = 6 ∨ b = 7 ∨ 13 ≤ b) :
    (statusWord s).getLsbD b = false := by
  rw [statusWord_getLsbD]
  repeat rw [if_neg (by omega)]

theorem statusWord_phase (s : State) : (statusWord s).extractLsb' 4 2 = phaseNumber s.phase := by
  apply BitVec.eq_of_getLsbD_eq
  intro i hi
  rw [BitVec.getLsbD_extractLsb', statusWord_getLsbD]
  interval_cases i <;> simp

theorem statusWord_err (s : State) : (statusWord s).extractLsb' 8 4 = errNumber s.err := by
  apply BitVec.eq_of_getLsbD_eq
  intro i hi
  rw [BitVec.getLsbD_extractLsb', statusWord_getLsbD]
  interval_cases i <;> simp

/-! ### Settled: the register window -/

/-- Settles O9: each offset reads its register; the capacity is a product of two 32-bit numbers, so its
two halves hold it whole. -/
theorem windowMapReads : Obligations.WindowMapReads := by
  intro s
  refine ⟨rfl, rfl, rfl, rfl, rfl, rfl, rfl, rfl, rfl, rfl, rfl, ?_, rfl, rfl, rfl, rfl⟩
  have halves : portRead s 0x30 ++ portRead s 0x2C = capacity s := BitVec.extractLsb'_append_extractLsb'
  have hlt : s.flt.wc.toNat * s.params.wordWidth.toNat < 2 ^ 32 * 2 ^ 32 :=
    Nat.mul_lt_mul'' s.flt.wc.isLt s.params.wordWidth.isLt
  rw [halves]
  simpa [capacity] using hlt

/-- Settles O10: the port's answer is the only thing a read writes. -/
theorem readsHaveNoSideEffect : Obligations.ReadsHaveNoSideEffect := by
  intro s offset rest hmul hlt hp
  rw [step_access hp]
  simp [portAccess, Access.wellFormed, hmul, hlt, portRead_withPending]

/-- Settles O11: no register is listed from 0x44 on; the reserved bits are the zeros between the fields; a
register's write looks at its own bits only. -/
theorem reservedReadsZeroIgnoresWrites : Obligations.ReservedReadsZeroIgnoresWrites := by
  refine ⟨fun s offset hmul hge hlt => ?_, fun s b => ?_, fun s v w rest => ?_⟩
  · have hnone := regAt_of_reserved hge
    refine ⟨by simp [portRead, hnone], fun v rest hb hp => ?_⟩
    rw [step_write hmul hlt hp]
    simp [portWrite, hb, hnone]
  · exact ⟨ctrlWord_getLsbD s, statusWord_reserved s⟩
  · constructor
    · intro h
      exact step_write_congr (r := .ctrl) (fun u => by simp only [writeReg, writeCtrl, h]) s rest
    · intro hdone hviol
      exact step_write_congr (r := .status)
        (fun u => by simp only [writeReg, writeStatus, hdone, hviol]) s rest

/-- Settles O12: the fields bit by bit, then the write as `writeStatus` makes it. -/
theorem statusFieldsAndWriteOneToClear : Obligations.StatusFieldsAndWriteOneToClear := by
  intro s
  refine ⟨statusWord_getLsbD s 0, statusWord_getLsbD s 1, statusWord_getLsbD s 2,
    statusWord_getLsbD s 12, statusWord_phase s, ?_, fun v rest hb hp => ?_⟩
  · exact statusWord_err s
  · exact step_writeReg (r := .status) hb hp

/-- Settles O14: each is `writeReg` of its register. -/
theorem keyAndControlWrites : Obligations.KeyAndControlWrites := by
  intro s v rest hb
  exact ⟨step_writeReg (r := .keyLo) hb, step_writeReg (r := .keyHi) hb, step_writeReg (r := .ctrl) hb⟩

/-- Settles O16: `writeReg` of a read-only register is the state itself. -/
theorem readOnlyRegistersIgnoreWrites : Obligations.ReadOnlyRegistersIgnoreWrites := by
  intro s r v rest hb hr hp
  rw [step_writeReg hb hp, writeReg_of_readOnly hr]

/-- Settles O21: a register is read from fields that are none of the three. -/
theorem hiddenStateIsInNoRegister : Obligations.HiddenStateIsInNoRegister := by
  intro s seed mem c
  exact ⟨fun r => by cases r <;> rfl, rfl⟩

/-- Settles O49: one fixed state. -/
theorem registersAtReset : Obligations.RegistersAtReset := by
  unfold Obligations.RegistersAtReset
  decide

/-! ### The invariant, operation by operation -/

/-- With no filter and no command in flight, the invariant asks only for legal parameters. -/
theorem inv_of_noFilter {s : State} (hparams : s.params.legal = true) (hphase : s.phase = .empty)
    (hbits : s.bits = []) (hrecord : s.flt.m = 0 ∧ s.flt.k = 0 ∧ s.flt.wc = 0) (hbusy : s.busy = false)
    (hhit : s.hit = false) : Inv s where
  params_legal := hparams
  memory_wf := by rw [hbits]; rfl
  empty_record _ := hrecord
  record_legal h := absurd hphase h
  words_present h := absurd hphase h
  slack_zero h := absurd hphase h
  busy_not_done h := by simp [hbusy] at h
  hit_ready h := by simp [hhit] at h

/-- A state with the same parameters, record and array keeps all that the invariant says of them; what is
left is what it says of `STATUS`. -/
theorem Inv.of_filter_eq {s t : State} (h : Inv s) (hparams : t.params = s.params) (hflt : t.flt = s.flt)
    (hbits : t.bits = s.bits) (hphase : t.phase = .empty ↔ s.phase = .empty)
    (hbusy : t.busy = true → t.done = false) (hhit : t.hit = true → t.phase = .ready ∧ t.err = .none) :
    Inv t where
  params_legal := by rw [hparams]; exact h.params_legal
  memory_wf := by rw [hparams, hbits]; exact h.memory_wf
  empty_record hp := by rw [hflt]; exact h.empty_record (hphase.mp hp)
  record_legal hp := by rw [hparams, hflt]; exact h.record_legal (mt hphase.mpr hp)
  words_present hp := by rw [hflt, hbits]; exact h.words_present (mt hphase.mpr hp)
  slack_zero hp := by rw [hparams, hflt, hbits]; exact h.slack_zero (mt hphase.mpr hp)
  busy_not_done := hbusy
  hit_ready := hhit

theorem Inv.one_le_wordWidth {s : State} (h : Inv s) : 1 ≤ s.params.wordWidth.toNat := by
  have hl := h.params_legal
  simp only [Params.legal, Bool.and_eq_true, decide_eq_true_eq] at hl
  omega

theorem Inv.withPending {s : State} (h : Inv s) (q : List Event) : Inv { s with pending := q } :=
  h.of_filter_eq rfl rfl rfl Iff.rfl h.busy_not_done h.hit_ready

/-- A completion that leaves the filter. -/
theorem Inv.of_publish {s : State} (h : Inv s) {e : ErrCode} {hit : Bool}
    (hhit : hit = true → s.phase = .ready ∧ e = .none) : Inv (publish e hit s) :=
  h.of_filter_eq rfl rfl rfl Iff.rfl (by simp) hhit

theorem Inv.of_assertReset {s : State} (h : Inv s) : Inv (assertReset s) :=
  inv_of_noFilter h.params_legal rfl rfl ⟨rfl, rfl, rfl⟩ rfl rfl

theorem bitAt_zeroWords {W n t : Nat} (mem : Memory) (h : t < n * W) :
    bitAt W (zeroWords n mem) t = some false := by
  have hword : t / W < n := Nat.div_lt_of_lt_mul (by rwa [Nat.mul_comm])
  simp [bitAt, memRead_zeroWords, hword]

/-- An accepted `INIT`: the new record is legal by the check of 41_lifecycle.md R111, and every word it
uses is 0. -/
theorem Inv.of_acceptedInit {s : State} (h : Inv s) (hl : stagedConfigLegal s = true) :
    Inv (publish .none false { s with flt := newRecord s, bits := zeroWords (stagedWordCount s) s.bits,
                                      draws := s.draws + 1, phase := .build }) := by
  have hwc := toNat_newRecord_wc hl
  simp only [stagedConfigLegal, Bool.and_eq_true, decide_eq_true_eq] at hl
  obtain ⟨⟨⟨hm, hk⟩, hkmax⟩, hfits⟩ := hl
  exact {
    params_legal := h.params_legal
    memory_wf := wf_zeroWords h.memory_wf hfits
    empty_record := by simp
    record_legal := fun _ => ⟨hm, hk, hkmax, hwc, hwc.trans_le hfits⟩
    words_present := fun _ j (hj : j < (newRecord s).wc.toNat) => by
      rw [hwc] at hj
      simp [memRead_zeroWords, hj]
    slack_zero := fun _ t (ht : t < (newRecord s).wc.toNat * _) _ => by
      rw [hwc] at ht
      exact bitAt_zeroWords s.bits ht
    busy_not_done := by simp
    hit_ready := by simp }

/-- An accepted `SET`: no probe lands on a slack bit (20_memory.md R54). -/
theorem Inv.of_acceptedSet {s : State} (h : Inv s) (hp : s.phase ≠ .empty) {key : DWord} {mem : Memory}
    (hm : setBits s.params.wordWidth.toNat s.bits (probes key s.flt) = some mem) :
    Inv (publish .none false { s with bits := mem }) where
  params_legal := h.params_legal
  memory_wf := wf_setBits h.one_le_wordWidth h.memory_wf hm
  empty_record := h.empty_record
  record_legal := h.record_legal
  words_present _ j hj := (setBits_present hm j).trans (h.words_present hp j hj)
  slack_zero _ t ht hmt := by
    have hnot : t ∉ (probes key s.flt).map BitVec.toNat := by
      rw [List.mem_map]
      rintro ⟨idx, hidx, rfl⟩
      exact absurd (mem_probes_lt (h.record_legal hp).1 hidx) (Nat.not_lt.mpr hmt)
    exact (bitAt_setBits hm t).trans ((if_neg hnot).trans (h.slack_zero hp t ht hmt))
  busy_not_done := by simp
  hit_ready := by simp

theorem Inv.of_exec {i : Instr} {s t : State} (h : Inv s) (hx : exec i s = .next t) : Inv t := by
  rcases exec_cases hx with ⟨-, hl, rfl⟩ | ⟨-, -, rfl⟩ | ⟨-, hp, mem, hm, rfl⟩ | ⟨-, hp, rfl⟩ |
    ⟨-, hp, answer, -, rfl⟩ | ⟨-, rfl⟩
  · exact h.of_acceptedInit hl
  · exact h.of_publish (by simp)
  · exact h.of_acceptedSet (by simp [hp]) hm
  · exact h.of_filter_eq rfl rfl rfl (by simp [hp]) (by simp) (by simp)
  · exact h.of_publish (fun _ => ⟨hp, rfl⟩)
  · exact h.of_publish (by simp)

theorem Inv.of_complete {s t : State} (h : Inv s) (hc : complete s = .next t) : Inv t := by
  rcases complete_cases hc with ⟨i, -, hx⟩ | ⟨e, -, rfl⟩
  · exact h.of_exec hx
  · exact h.of_publish (by simp)

/-- An issue clears `DONE`, and no other write sets `BUSY` or `DONE`. -/
theorem writeReg_busy_not_done (r : Reg) (v : Word) {s : State} (h : s.busy = true → s.done = false) :
    (writeReg r v s).busy = true → (writeReg r v s).done = false := by
  cases r with
  | cmd => exact fun _ => rfl
  | status => intro hb; simp [writeReg, h hb]
  | _ => exact h

theorem portAccess_busy_not_done (a : Access) {s : State} (h : s.busy = true → s.done = false) :
    (portAccess a s).busy = true → (portAccess a s).done = false := by
  rcases portAccess_cases a s with ⟨-, -, e⟩ | ⟨v, -, -, e⟩ | ⟨-, e⟩
  · rw [e]; exact h
  · rw [e]
    rcases portWrite_cases a.offset v s with ⟨-, e'⟩ | ⟨-, -, e'⟩ | ⟨r, -, -, e'⟩
    · rw [e']; exact h
    · rw [e']; exact h
    · rw [e']; exact writeReg_busy_not_done r v h
  · rw [e]; cases a.kind <;> exact h

theorem Inv.of_portAccess {s : State} (h : Inv s) (a : Access) : Inv (portAccess a s) := by
  obtain ⟨hparams, hflt, hbits, hphase, hhit, herr, -⟩ := portAccess_frame a s
  refine h.of_filter_eq hparams hflt hbits (by rw [hphase]) (portAccess_busy_not_done a h.busy_not_done) ?_
  rw [hhit, hphase, herr]
  exact h.hit_ready

theorem Inv.of_step {s t : State} (h : Inv s) (hs : step s = .next t) : Inv t := by
  rcases step_cases hs with ⟨a, rest, -, rfl⟩ | ⟨rest, -, rfl⟩ | ⟨rest, -, -, rfl⟩ | ⟨rest, -, -, hc⟩
  · exact (h.withPending rest).of_portAccess a
  · exact (h.withPending rest).of_assertReset
  · exact h.withPending rest
  · exact (h.withPending rest).of_complete hc

/-! ### Settled: the invariant, and what a step keeps -/

/-- Settles O41: the default parameters are legal and there is no filter. -/
theorem resetMeetsTheInvariant : Obligations.ResetMeetsTheInvariant :=
  inv_of_noFilter (by decide) rfl rfl ⟨rfl, rfl, rfl⟩ rfl rfl

/-- Settles O42, operation by operation. -/
theorem stepKeepsTheInvariant : Obligations.StepKeepsTheInvariant := fun _ _ h hs => h.of_step hs

/-- Settles O19: of the four things a step can be, only a bus access leaves the command in flight. -/
theorem busyShowsTheStateBeforeTheCommand : Obligations.BusyShowsTheStateBeforeTheCommand := by
  intro s t hi hb hs hb'
  rcases step_cases hs with ⟨a, rest, -, rfl⟩ | ⟨rest, -, rfl⟩ | ⟨rest, -, hidle, -⟩ | ⟨rest, -, -, hc⟩
  · obtain ⟨p, viol, n, e⟩ := portAccess_while_busy a (s := { s with pending := rest }) hb
    rw [e]
    refine ⟨fun r hr => ?_, hi.busy_not_done hb, rfl, rfl, rfl, rfl, rfl, rfl⟩
    cases r with
    | status => exact absurd rfl hr
    | _ => rfl
  · simp [assertReset] at hb'
  · simp [hidle] at hb
  · obtain ⟨-, -, -, hidle, -⟩ := complete_frame hc
    simp [hidle] at hb'

theorem step_params {s t : State} (hs : step s = .next t) : t.params = s.params := by
  rcases step_filter_cases hs with ⟨-, -, -, -, -, -, -, -, hparams⟩ | ⟨-, hparams, -⟩ <;> exact hparams

/-- Settles O22: the constant registers read `params`, which no step writes. -/
theorem parametersNeverChange : Obligations.ParametersNeverChange := by
  intro s t hs
  simp [step_params hs, readReg]

/-- Settles O37, over the outcomes of the four commands. -/
theorem commandsLeaveTheHostsRegisters : Obligations.CommandsLeaveTheHostsRegisters := by
  intro i s t hx
  rcases exec_cases hx with ⟨rfl, -, rfl⟩ | ⟨rfl, -, rfl⟩ | ⟨rfl, -, mem, -, rfl⟩ | ⟨rfl, -, rfl⟩ |
    ⟨rfl, -, answer, -, rfl⟩ | ⟨-, rfl⟩
  all_goals simp

/-- Settles O45: the cases of `step_filter_cases`, then the invariant of the next state. -/
theorem arrayOnlyGrows : Obligations.ArrayOnlyGrows := by
  intro s t hi hs
  have hi' := hi.of_step hs
  refine ⟨fun hreset hinit i hbit => ?_, fun hready hready' j => ?_, fun hp =>
    ⟨fun i hm ht => hi'.slack_zero hp i ht hm,
      fun key idx hidx => mem_probes_lt (hi'.record_legal hp).1 hidx⟩⟩
  · rw [step_params hs]
    rcases step_filter_cases hs with ⟨h, -⟩ |
      ⟨-, -, -, ⟨h, -⟩ | ⟨-, -, -, -, -, -, key, hset⟩ | ⟨-, -, -, hbits, -⟩⟩
    · simp [hreset] at h
    · simp [hinit] at h
    · rw [bitAt_setBits hset, hbit, ite_self]
    · rwa [hbits]
  · rcases step_filter_cases hs with ⟨-, -, -, -, h, -⟩ |
      ⟨-, -, -, ⟨-, -, -, -, h⟩ | ⟨-, -, h, -⟩ | ⟨-, -, -, hbits, -⟩⟩
    · simp [hready'] at h
    · simp [hready'] at h
    · simp [hready] at h
    · rw [hbits]

/-- Settles O46, over the cases of `step_filter_cases`. -/
theorem oneSeedDrawPerAcceptedInit : Obligations.OneSeedDrawPerAcceptedInit := by
  intro s t hs
  rcases step_filter_cases hs with ⟨hreset, -, -, -, -, hdraws, -, hinit, -⟩ |
    ⟨hreset, -, -, ⟨hinit, hflt, -, hdraws, -⟩ | ⟨hinit, -, -, -, hflt, hdraws, -⟩ | ⟨hinit, hflt, hdraws, -⟩⟩
  · simp [hinit, hreset, hdraws]
  · simp [hinit, hdraws, hflt, newRecord]
  · simp [hinit, hdraws, hflt]
  · simp [hinit, hdraws, hflt]

/-! ### Arrays that agree on the words in use -/

theorem testBits_congr {W W' : Nat} {a b : Memory} {idxs : List Word}
    (h : ∀ i ∈ idxs, bitAt W a i.toNat = bitAt W' b i.toNat) : testBits W a idxs = testBits W' b idxs := by
  induction idxs with
  | nil => rfl
  | cons i rest ih =>
    rw [List.forall_mem_cons] at h
    simp [testBits, h.1, ih h.2]

theorem bitAt_congr {W n t : Nat} {a b : Memory} (hab : ∀ j < n, memRead a j = memRead b j)
    (ht : t / W < n) : bitAt W a t = bitAt W b t := by
  simp [bitAt, hab _ ht]

/-- The zero fill makes any two arrays agree on the words it fills. -/
theorem zeroWords_agree {n j : Nat} (a b : Memory) (hj : j < n) :
    memRead (zeroWords n a) j = memRead (zeroWords n b) j := by
  simp [memRead_zeroWords, hj]

/-- The bit-set loop keeps two arrays in agreement on the words below `n`, where it stays below `n`. -/
theorem setBits_agree {W n : Nat} {a b a' : Memory} {idxs : List Word}
    (hab : ∀ j < n, memRead a j = memRead b j) (hidxs : ∀ i ∈ idxs, i.toNat / W < n)
    (h : setBits W a idxs = some a') :
    ∃ b', setBits W b idxs = some b' ∧ ∀ j < n, memRead a' j = memRead b' j := by
  induction idxs generalizing a b with
  | nil =>
    simp only [setBits, Option.some.injEq] at h
    exact ⟨b, rfl, h ▸ hab⟩
  | cons i rest ih =>
    obtain ⟨hi, hrest⟩ := List.forall_mem_cons.mp hidxs
    obtain ⟨a1, ha1, hrun⟩ := setBits_cons.mp h
    obtain ⟨v, hv, rfl⟩ := memOr_eq_some.mp ha1
    have hb1 : setBit W b i.toNat = some (memWrite b (i.toNat / W) (v ||| 1 <<< (i.toNat % W))) :=
      memOr_eq_some.mpr ⟨v, (hab _ hi).symm.trans hv, rfl⟩
    obtain ⟨b', hb', hagree⟩ := ih (b := memWrite b (i.toNat / W) (v ||| 1 <<< (i.toNat % W)))
      (fun j hj => by simp only [memRead_memWrite, hab j hj]) hrest hrun
    exact ⟨b', setBits_cons.mpr ⟨_, hb1, hb'⟩, hagree⟩

/-- Every probe of the current filter lies in a word in use (20_memory.md R54). -/
theorem probe_word_lt_wc {s : State} (hi : Inv s) (hp : s.phase ≠ .empty) {key : DWord} {idx : Word}
    (h : idx ∈ probes key s.flt) : idx.toNat / s.params.wordWidth.toNat < s.flt.wc.toNat := by
  obtain ⟨hm, -, -, hwc, -⟩ := hi.record_legal hp
  have hW := hi.one_le_wordWidth
  rw [hwc]
  exact (div_lt_ceilDiv (mem_probes_lt hm h)).resolve_right (by omega)

/-! ### Commands and turns, forwards -/

theorem execSet_of_setBits {s : State} {mem : Memory} (hp : s.phase = .build)
    (hm : setBits s.params.wordWidth.toNat s.bits (probes (keyOperand s) s.flt) = some mem) :
    execSet s = .next (publish .none false { s with bits := mem }) := by
  simp [execSet, hp, insertProbes, hm]

theorem execTest_of_testBits {s : State} {answer : Bool} (hp : s.phase = .ready)
    (hb : testBits s.params.wordWidth.toNat s.bits (probes (keyOperand s) s.flt) = some answer) :
    execTest s = .next (publish .none answer s) := by
  simp [execTest, hp, queryProbes, hb]

theorem execSet_of_wrongPhase {s : State} (hp : s.phase ≠ .build) :
    execSet s = .next (publish .phase false s) := if_neg hp

theorem execTest_of_wrongPhase {s : State} (hp : s.phase ≠ .ready) :
    execTest s = .next (publish .phase false s) := if_neg hp

theorem engineTurn_of_busy {s : State} (hb : s.busy = true) : engineTurn s = complete s := if_pos hb

theorem engineTurn_of_idle {s : State} (hb : s.busy = false) : engineTurn s = .next s := by
  simp [engineTurn, hb]

/-! ### What is left unspecified, operation by operation -/

namespace SameButUnspecified

theorem refl (s : State) : SameButUnspecified s s := ⟨rfl, fun _ => ⟨rfl, fun _ _ => rfl⟩, fun _ => rfl⟩

/-- The second state written out from the first and the three unspecified values. -/
theorem exists_values {s t : State} (h : SameButUnspecified s t) :
    ∃ seed mem c, t = { s with flt := ⟨s.flt.m, s.flt.k, s.flt.wc, seed⟩, bits := mem, cmdLatch := c } ∧
      (s.phase ≠ .empty → s.flt.seed = seed ∧ ∀ j < s.flt.wc.toNat, memRead s.bits j = memRead mem j) ∧
      (s.busy = true → s.cmdLatch = c) :=
  ⟨_, _, _, h⟩

theorem readReg_eq {s t : State} (h : SameButUnspecified s t) (r : Reg) : readReg t r = readReg s r := by
  rw [h.1]
  exact (hiddenStateIsInNoRegister s _ _ _).1 r

theorem irq_eq {s t : State} (h : SameButUnspecified s t) : irq t = irq s := by
  rw [h.1]
  exact (hiddenStateIsInNoRegister s _ _ _).2

theorem pending_eq {s t : State} (h : SameButUnspecified s t) : t.pending = s.pending := by
  rw [h.1]

theorem busy_eq {s t : State} (h : SameButUnspecified s t) : t.busy = s.busy := by
  rw [h.1]

theorem badReads_eq {s t : State} (h : SameButUnspecified s t) : t.badReads = s.badReads := by
  rw [h.1]

theorem withPending {s t : State} (h : SameButUnspecified s t) (q : List Event) :
    SameButUnspecified { s with pending := q } { t with pending := q } := by
  obtain ⟨seed, mem, c, rfl, hfilter, hlatch⟩ := h.exists_values
  exact ⟨rfl, hfilter, hlatch⟩

/-- A change of the port's answer and of its counter alone. -/
theorem withPort {s t : State} (h : SameButUnspecified s t) {p q : PortResponse} (hport : q = p)
    {m n : Nat} (hcount : n = m) :
    SameButUnspecified { s with port := p, badReads := m } { t with port := q, badReads := n } := by
  obtain ⟨seed, mem, c, rfl, hfilter, hlatch⟩ := h.exists_values
  subst hport hcount
  exact ⟨rfl, hfilter, hlatch⟩

theorem of_flagBusyViolation {s t : State} (h : SameButUnspecified s t) :
    SameButUnspecified (flagBusyViolation s) (flagBusyViolation t) := by
  obtain ⟨seed, mem, c, rfl, hfilter, hlatch⟩ := h.exists_values
  exact ⟨rfl, hfilter, hlatch⟩

/-- An issue makes the latch a specified value. -/
theorem of_writeReg {s t : State} (h : SameButUnspecified s t) (r : Reg) (v : Word) :
    SameButUnspecified (writeReg r v s) (writeReg r v t) := by
  obtain ⟨seed, mem, c, rfl, hfilter, hlatch⟩ := h.exists_values
  cases r with
  | cmd => exact ⟨rfl, hfilter, fun _ => rfl⟩
  | _ => exact ⟨rfl, hfilter, hlatch⟩

theorem of_portWrite {s t : State} (h : SameButUnspecified s t) (offset : Nat) (v : Word) :
    SameButUnspecified (portWrite offset v s) (portWrite offset v t) := by
  unfold portWrite
  rw [h.busy_eq]
  split
  · exact h.of_flagBusyViolation
  · split
    · exact h.of_writeReg _ v
    · exact h

theorem of_portAccess {s t : State} (h : SameButUnspecified s t) (a : Access) :
    SameButUnspecified (portAccess a s) (portAccess a t) := by
  unfold portAccess
  split
  · cases a.kind with
    | read => exact h.withPort (congrArg PortResponse.data (portRead_congr h.readReg_eq a.offset)) h.badReads_eq
    | write v =>
      have hwrite := h.of_portWrite a.offset v
      exact hwrite.withPort rfl hwrite.badReads_eq
  · cases a.kind with
    | read => exact h.withPort (by rw [h.badReads_eq]) (by rw [h.badReads_eq])
    | write v => exact h.withPort rfl h.badReads_eq

theorem of_assertReset {s t : State} (h : SameButUnspecified s t) :
    SameButUnspecified (assertReset s) (assertReset t) := by
  obtain ⟨seed, mem, c, rfl, -⟩ := h.exists_values
  exact refl _

theorem of_publish {s t : State} (h : SameButUnspecified s t) (e : ErrCode) (hit : Bool) :
    SameButUnspecified (publish e hit s) (publish e hit t) := by
  obtain ⟨seed, mem, c, rfl, hfilter, -⟩ := h.exists_values
  exact ⟨rfl, hfilter, by simp⟩

/-- With a filter the two states hash alike, and the words their probes lie in agree. -/
theorem of_exec {i : Instr} {s t s' : State} (hi : Inv s) (h : SameButUnspecified s t)
    (hx : exec i s = .next s') : ∃ t', exec i t = .next t' ∧ SameButUnspecified s' t' := by
  have hpublish := h.of_publish
  obtain ⟨seed, mem, c, rfl, hfilter, -⟩ := h.exists_values
  rcases exec_cases hx with ⟨rfl, hl, rfl⟩ | ⟨rfl, hl, rfl⟩ | ⟨rfl, hp, out, hm, rfl⟩ | ⟨rfl, hp, rfl⟩ |
    ⟨rfl, hp, answer, hb, rfl⟩ | ⟨hp, rfl⟩
  · refine ⟨_, if_pos hl, rfl, fun _ => ⟨rfl, fun j (hj : j < (newRecord s).wc.toNat) => ?_⟩, by simp⟩
    rw [toNat_newRecord_wc hl] at hj
    exact zeroWords_agree s.bits mem hj
  · exact ⟨_, if_neg (Bool.eq_false_iff.mp hl), hpublish .cfg false⟩
  · have hne : s.phase ≠ .empty := by simp [hp]
    obtain ⟨rfl, hwords⟩ := hfilter hne
    obtain ⟨out', hm', hagree⟩ := setBits_agree hwords (fun idx => probe_word_lt_wc hi hne) hm
    exact ⟨_, execSet_of_setBits hp hm', rfl, fun _ => ⟨rfl, hagree⟩, by simp⟩
  · exact ⟨_, if_pos hp, rfl, fun _ => hfilter (by simp [hp]), by simp⟩
  · have hne : s.phase ≠ .empty := by simp [hp]
    obtain ⟨rfl, hwords⟩ := hfilter hne
    rw [testBits_congr (fun idx hidx => bitAt_congr hwords (probe_word_lt_wc hi hne hidx))] at hb
    exact ⟨_, execTest_of_testBits hp hb, hpublish .none answer⟩
  · refine ⟨_, ?_, hpublish .phase false⟩
    rcases hp with ⟨rfl, hp⟩ | ⟨rfl, hp⟩ | ⟨rfl, hp⟩
    · exact execSet_of_wrongPhase hp
    · exact if_neg hp
    · exact execTest_of_wrongPhase hp

/-- With a command in flight the latch is specified, so both states decode the same word. -/
theorem of_complete {s t s' : State} (hi : Inv s) (hb : s.busy = true) (h : SameButUnspecified s t)
    (hc : complete s = .next s') : ∃ t', complete t = .next t' ∧ SameButUnspecified s' t' := by
  have hlatch := h.2.2 hb
  rcases complete_cases hc with ⟨i, hd, hx⟩ | ⟨e, hd, rfl⟩
  · obtain ⟨t', hx', h'⟩ := of_exec hi h hx
    exact ⟨t', by simp [complete, ← hlatch, hd, hx'], h'⟩
  · exact ⟨_, by simp [complete, ← hlatch, hd], h.of_publish _ _⟩

theorem engineNext {s t : State} {rest : List Event} (h : SameButUnspecified s t)
    (he : EngineNext s rest) : EngineNext t rest := by
  unfold EngineNext
  rwa [h.pending_eq]

theorem of_step {s t s' : State} (hi : Inv s) (h : SameButUnspecified s t) (hs : step s = .next s') :
    ∃ t', step t = .next t' ∧ SameButUnspecified s' t' := by
  rcases step_cases hs with ⟨a, rest, hp, rfl⟩ | ⟨rest, hp, rfl⟩ | ⟨rest, he, hb, rfl⟩ |
    ⟨rest, he, hb, hc⟩
  · exact ⟨_, step_access (h.pending_eq.trans hp), (h.withPending rest).of_portAccess a⟩
  · exact ⟨_, step_rst (h.pending_eq.trans hp), (h.withPending rest).of_assertReset⟩
  · refine ⟨_, (step_of_engineNext (h.engineNext he)).trans (engineTurn_of_idle ?_), h.withPending rest⟩
    exact h.busy_eq.trans hb
  · obtain ⟨t', hc', h'⟩ := of_complete (hi.withPending rest) hb (h.withPending rest) hc
    have hturn : engineTurn { t with pending := rest } = complete { t with pending := rest } :=
      engineTurn_of_busy (h.busy_eq.trans hb)
    exact ⟨t', by rw [step_of_engineNext (h.engineNext he), hturn, hc'], h'⟩

end SameButUnspecified

/-- Settles O50: the relation is kept by every operation, and related states read alike (O21). -/
theorem unspecifiedValuesAreUnobservable : Obligations.UnspecifiedValuesAreUnobservable := by
  intro s t s' hi _ h hs
  obtain ⟨t', hs', h'⟩ := h.of_step hi hs
  exact ⟨t', hs', h', fun r => (h'.readReg_eq r).symm, h'.irq_eq.symm⟩

end Sys2Proof.Machine

/-! SUPPORT and PROOFS. The statements about the bit array: the words the probes lie in, the order they are
served in, the word width, and reading after writing. -/

namespace Sys2Proof.Machine

/-! ### Word counts -/

/-- The last of the `ceil(m / W)` words is the one bit `m - 1` lies in (20_memory.md R54). -/
theorem ceilDiv_eq_pred_div_succ {m W : Nat} (hm : 1 ≤ m) (hW : 1 ≤ W) :
    ceilDiv m W = (m - 1) / W + 1 := by
  have hsum : m + W - 1 = m - 1 + W := by omega
  rw [ceilDiv, hsum, Nat.add_div_right _ hW]

/-- `INIT`'s zero fill clears every bit below `m`, whatever the word width (41_lifecycle.md R113). -/
theorem bitAt_zeroWords_ceilDiv {W m i : Nat} (mem : Memory) (hW : 1 ≤ W) (hi : i < m) :
    bitAt W (zeroWords (ceilDiv m W) mem) i = some false := by
  have hword : i / W < ceilDiv m W := (div_lt_ceilDiv hi).resolve_right (by omega)
  exact bitAt_zeroWords mem ((Nat.div_lt_iff_lt_mul hW).mp hword)

/-! ### The probes of a sequence in another order -/

theorem setBit_target_present {W : Nat} {mem mem' : Memory} {i : Nat} (h : setBit W mem i = some mem') :
    (memRead mem (i / W)).isSome = true := by
  obtain ⟨v, hv, -⟩ := memOr_eq_some.mp h
  simp [hv]

/-- The bit-set loop completes only where every word it targets has a value; `setBits_completes` is the
converse. -/
theorem setBits_targets_present {W : Nat} {mem mem' : Memory} {idxs : List Word}
    (h : setBits W mem idxs = some mem') : ∀ i ∈ idxs, (memRead mem (i.toNat / W)).isSome = true := by
  induction idxs generalizing mem with
  | nil => simp
  | cons i rest ih =>
    obtain ⟨m1, hset, hrun⟩ := setBits_cons.mp h
    refine List.forall_mem_cons.mpr ⟨setBit_target_present hset, fun x hx => ?_⟩
    rw [← setBit_present hset]
    exact ih hrun x hx

/-- The reordered loop completes too, and its array has the same bits, so it is the same array. -/
theorem setBits_of_perm {W M : Nat} {mem out : Memory} {xs ys : List Word} (hW : 1 ≤ W)
    (hm : Memory.wf W M mem = true) (hperm : xs.Perm ys) (h : setBits W mem xs = some out) :
    setBits W mem ys = some out := by
  obtain ⟨out', h'⟩ := setBits_completes (W := W) (mem := mem) (idxs := ys)
    (fun i hi => setBits_targets_present h i (hperm.mem_iff.mpr hi))
  have hbits : ∀ t, bitAt W out' t = bitAt W out t := fun t => by
    simp only [bitAt_setBits h, bitAt_setBits h', (hperm.map BitVec.toNat).mem_iff]
  rw [h', bitAt_ext hW (wf_setBits hW hm h') (wf_setBits hW hm h) hbits]

theorem testBits_of_perm {W : Nat} {mem : Memory} {xs ys : List Word} (hperm : xs.Perm ys)
    (h : ∀ i ∈ xs, (bitAt W mem i.toNat).isSome = true) : testBits W mem xs = testBits W mem ys := by
  rw [testBits_eq_and h, testBits_eq_and (fun i hi => h i (hperm.mem_iff.mpr hi)), hperm.all_eq]

/-! ### Settled: the bit array -/

/-- Settles O26: a probe is below `FLT.m`, and `FLT.wc` is the word count of `FLT.m`. -/
theorem probesStayInTheArray : Obligations.ProbesStayInTheArray := by
  intro s key hi hp idx hidx
  obtain ⟨hm, -, -, hwc, hmax⟩ := hi.record_legal hp
  have hlt := mem_probes_lt hm hidx
  rw [ceilDiv_eq_pred_div_succ hm hi.one_le_wordWidth] at hwc
  have hpos : 1 ≤ s.flt.wc.toNat := hwc ▸ Nat.le_add_left 1 _
  exact ⟨hlt, Nat.div_le_div_right (Nat.le_sub_one_of_lt hlt), Nat.eq_sub_of_add_eq hwc.symm, hpos,
    Nat.sub_one_lt_of_le hpos hmax⟩

/-- Settles O28: the bit-set loop leaves the array that the set of its probes determines, and the bit-test
loop answers the AND over them. -/
theorem probeOrderIsUnobservable : Obligations.ProbeOrderIsUnobservable := by
  intro W M mem xs ys hW hm hperm
  exact ⟨Option.ext fun _ => ⟨setBits_of_perm hW hm hperm, setBits_of_perm hW hm hperm.symm⟩,
    testBits_of_perm hperm⟩

/-- Settles O29: each of the three loops is determined bit by bit. -/
theorem hitDoesNotDependOnTheWordWidth : Obligations.HitDoesNotDependOnTheWordWidth := by
  intro W W' mem mem' hW hW'
  refine ⟨fun m i hi => ?_, fun idxs => ⟨fun out out' hout hout' i hagree => ?_, testBits_congr⟩⟩
  · rw [bitAt_zeroWords_ceilDiv mem hW hi, bitAt_zeroWords_ceilDiv mem' hW' hi]
  · rw [bitAt_setBits hout, bitAt_setBits hout', hagree]

/-- Settles O30: `MemOr` is a `MemWrite` of the word's value with the mask, and a `MemWrite` is read back. -/
theorem arrayReadsAfterWrites : Obligations.ArrayReadsAfterWrites := by
  intro mem j v
  refine ⟨memRead_memWrite mem j v, fun w hw => ?_⟩
  refine ⟨memWrite mem j (w ||| v), memOr_eq_some.mpr ⟨w, hw, rfl⟩, w ||| v, ?_,
    fun b => Nat.testBit_or w v b, fun i hi => ?_⟩
  · rw [memRead_memWrite, if_pos rfl]
  · rw [memRead_memWrite, if_neg hi]

end Sys2Proof.Machine

/-! SUPPORT and PROOFS. The statements about command words and the host's programs: the decoder against the
encoder, issue and completion, and what a host that runs a program reads and writes. -/

namespace Sys2Proof

/-! ### Bytes and words -/

theorem bytesOfWord_wordOfBytes (b0 b1 b2 b3 : Byte) :
    bytesOfWord (wordOfBytes b0 b1 b2 b3) = [b0, b1, b2, b3] := by
  have h0 : (wordOfBytes b0 b1 b2 b3).extractLsb' 0 8 = b0 := BitVec.extractLsb'_append_eq_right
  have h1 : (wordOfBytes b0 b1 b2 b3).extractLsb' 8 8 = b1 :=
    (BitVec.extractLsb'_append_eq_of_le (by decide)).trans BitVec.extractLsb'_append_eq_right
  have h2 : (wordOfBytes b0 b1 b2 b3).extractLsb' 16 8 = b2 :=
    (BitVec.extractLsb'_append_eq_of_le (by decide)).trans
      ((BitVec.extractLsb'_append_eq_of_le (by decide)).trans BitVec.extractLsb'_append_eq_right)
  have h3 : (wordOfBytes b0 b1 b2 b3).extractLsb' 24 8 = b3 :=
    (BitVec.extractLsb'_append_eq_of_le (by decide)).trans
      ((BitVec.extractLsb'_append_eq_of_le (by decide)).trans BitVec.extractLsb'_append_eq_left)
  rw [bytesOfWord, h0, h1, h2, h3]

theorem wordOfBytes_extractLsb' (c : Word) :
    wordOfBytes (c.extractLsb' 0 8) (c.extractLsb' 8 8) (c.extractLsb' 16 8) (c.extractLsb' 24 8) = c := by
  have top : c.extractLsb' 24 8 ++ c.extractLsb' 16 8 = c.extractLsb' 16 16 :=
    BitVec.extractLsb'_append_extractLsb'_eq_extractLsb' rfl
  have zero : c.extractLsb' 16 16 ++ c.extractLsb' 8 8 = c.extractLsb' 8 24 :=
    BitVec.extractLsb'_append_extractLsb'_eq_extractLsb' rfl
  rw [wordOfBytes, top, zero]
  exact word_split c

/-- A word and its little-endian bytes determine each other (20_memory.md R51). -/
theorem wordOfBytes_eq_iff {b0 b1 b2 b3 : Byte} {c : Word} :
    wordOfBytes b0 b1 b2 b3 = c ↔ [b0, b1, b2, b3] = bytesOfWord c := by
  constructor
  · rintro rfl
    exact (bytesOfWord_wordOfBytes b0 b1 b2 b3).symm
  · intro h
    simp only [bytesOfWord, List.cons.injEq, and_true] at h
    obtain ⟨rfl, rfl, rfl, rfl⟩ := h
    exact wordOfBytes_extractLsb' c

/-- The decoder reads the first four bytes and hands back the others. -/
theorem decode_cons_eq_ok_iff {b0 b1 b2 b3 : Byte} {tail rest : List Byte} {i : Instr} :
    decode (b0 :: b1 :: b2 :: b3 :: tail) = .ok (i, rest) ↔
      decodeWord (wordOfBytes b0 b1 b2 b3) = .ok i ∧ tail = rest := by
  simp only [decode]
  cases decodeWord (wordOfBytes b0 b1 b2 b3) <;> simp

/-- Settles O1: the first four bytes are a word, that word decodes to `i` exactly when it is `encode i`, and a
word is its bytes. A shorter list neither decodes nor begins with four bytes. -/
theorem decodeReadsExactlyTheEncodedCommands : Obligations.DecodeReadsExactlyTheEncodedCommands := by
  intro bs rest i
  match bs with
  | b0 :: b1 :: b2 :: b3 :: tail =>
    rw [decode_cons_eq_ok_iff, decodeWord_eq_ok_iff, wordOfBytes_eq_iff]
    simp [encodeBytes, bytesOfWord, and_assoc]
  | [] | [_] | [_, _] | [_, _, _] => simp [decode, encodeBytes, bytesOfWord]

/-- Settles O2: the words, one by one. -/
theorem writtenOutCommandWordsDecode : Obligations.WrittenOutCommandWordsDecode := by
  unfold Obligations.WrittenOutCommandWordsDecode
  decide

end Sys2Proof

namespace Sys2Proof.Machine

/-! ### Issue and completion -/

/-- With a command in flight the engine's turn is its completion (30_encoding.md R76). -/
theorem step_of_busy {s : State} {rest : List Event} (he : EngineNext s rest) (hb : s.busy = true) :
    step s = complete { s with pending := rest } :=
  (step_of_engineNext he).trans (engineTurn_of_busy hb)

theorem complete_of_decodeWord {s : State} {i : Instr} (h : decodeWord s.cmdLatch = .ok i) :
    complete s = exec i s := by
  simp [complete, h]

/-- A well-formed write while a command is in flight, as a step (10_state.md R41). -/
theorem step_write_of_busy {s : State} {offset : Nat} {v : Word} {rest : List Event} (hmul : offset % 4 = 0)
    (hlt : offset < 0x100) (hb : s.busy = true) (hp : s.pending = Event.write offset v :: rest) :
    step s = .next { s with pending := rest, port := .written, busyViol := true } := by
  rw [step_write hmul hlt hp]
  simp [portWrite, hb, flagBusyViolation]

/-- The configuration check on numbers (41_lifecycle.md R111). -/
theorem stagedConfigLegal_iff {s : State} :
    stagedConfigLegal s = true ↔
      1 ≤ s.cfgBitCount.toNat ∧ 1 ≤ s.cfgProbeCount.toNat ∧
        s.cfgProbeCount.toNat ≤ s.params.kMax.toNat ∧
        (s.cfgBitCount.toNat + s.params.wordWidth.toNat - 1) / s.params.wordWidth.toNat ≤
          s.params.maxWords.toNat := by
  simp only [stagedConfigLegal, Bool.and_eq_true, decide_eq_true_eq, and_assoc]
  rfl

/-- The code that the checks of a command report: the phase check, then `INIT`'s configuration check
(30_encoding.md R77). -/
def checkedCode (i : Instr) (s : State) : ErrCode :=
  match i with
  | .cmdInit => if stagedConfigLegal s = true then .none else .cfg
  | .cmdSet => if s.phase = .build then .none else .phase
  | .cmdSeal => if s.phase = .build then .none else .phase
  | .cmdTest => if s.phase = .ready then .none else .phase

theorem exec_err {i : Instr} {s t : State} (h : exec i s = .next t) : t.err = checkedCode i s := by
  rcases exec_cases h with ⟨rfl, hl, rfl⟩ | ⟨rfl, hl, rfl⟩ | ⟨rfl, hp, mem, -, rfl⟩ | ⟨rfl, hp, rfl⟩ |
    ⟨rfl, hp, answer, -, rfl⟩ | ⟨⟨rfl, hp⟩ | ⟨rfl, hp⟩ | ⟨rfl, hp⟩, rfl⟩
  · simp [checkedCode, hl]
  · simp [checkedCode, hl]
  all_goals simp [checkedCode, hp]

theorem cmdLatch_ne_encode {s : State} {e : DecodeError} (h : decodeWord s.cmdLatch = .error e) (i : Instr) :
    s.cmdLatch ≠ encode i := by
  intro hi
  rw [decodeWord_eq_ok_iff.mpr hi] at h
  cases h

/-- Under the invariant the probed words have values, so no command stops the machine (10_state.md R37). -/
theorem Inv.exec_answers {s : State} (h : Inv s) (i : Instr) : ∃ t, exec i s = .next t := by
  cases i with
  | cmdInit =>
    have heq := execInit_eq s
    split at heq <;> exact ⟨_, heq⟩
  | cmdSet =>
    by_cases hp : s.phase = .build
    · obtain ⟨mem, hmem⟩ := setBits_completes (W := s.params.wordWidth.toNat) (mem := s.bits)
        (idxs := probes (keyOperand s) s.flt) (fun idx => probe_words_present h (by simp [hp]))
      exact ⟨_, execSet_of_setBits hp hmem⟩
    · exact ⟨_, execSet_of_wrongPhase hp⟩
  | cmdSeal =>
    have heq := execSeal_eq s
    split at heq <;> exact ⟨_, heq⟩
  | cmdTest =>
    by_cases hp : s.phase = .ready
    · refine ⟨_, execTest_of_testBits hp (testBits_eq_and fun idx hidx => ?_)⟩
      rw [bitAt_isSome]
      exact probe_words_present h (by simp [hp]) hidx
    · exact ⟨_, execTest_of_wrongPhase hp⟩

theorem complete_of_illegal {s : State} {e : DecodeError} (h : decodeWord s.cmdLatch = .error e) :
    complete s = .next (publish .illegal false s) := by
  simp [complete, h]

theorem Inv.complete_answers {s : State} (h : Inv s) : ∃ t, complete s = .next t := by
  cases hd : decodeWord s.cmdLatch with
  | ok i => rw [complete_of_decodeWord hd]; exact h.exec_answers i
  | error e => exact ⟨_, complete_of_illegal hd⟩

/-- A completion answers, and the command is no longer in flight. -/
theorem Inv.completion_answers {s : State} (h : Inv s) (hc : isCompletion s = true) :
    ∃ t, step s = .next t ∧ t.busy = false ∧ t.done = true := by
  obtain ⟨hb, rest, he⟩ := isCompletion_iff.mp hc
  obtain ⟨t, ht⟩ := (h.withPending rest).complete_answers
  obtain ⟨-, -, hdone, hbusy, -⟩ := complete_frame ht
  exact ⟨t, (step_of_busy he hb).trans ht, hbusy, hdone⟩

/-- After at most `k` steps the command in flight completes, with everything it works on as in `s`
(30_encoding.md R76, 10_state.md R41). -/
def CompletesWithin (k : Nat) (s : State) : Prop :=
  ∃ n ≤ k, ∃ u t, Host.Core.run core n s = .next u ∧ isCompletion u = true ∧
    u.cmdLatch = s.cmdLatch ∧ u.phase = s.phase ∧ u.flt = s.flt ∧ u.bits = s.bits ∧
    keyOperand u = keyOperand s ∧ u.cfgBitCount = s.cfgBitCount ∧ u.cfgProbeCount = s.cfgProbeCount ∧
    Host.Core.run core (n + 1) s = .next t ∧ t.busy = false ∧ t.done = true

theorem Inv.completesWithin_of_engineNext {s : State} {rest : List Event} (h : Inv s) (hb : s.busy = true)
    (he : EngineNext s rest) (k : Nat) : CompletesWithin k s := by
  have hc : isCompletion s = true := isCompletion_iff.mpr ⟨hb, rest, he⟩
  obtain ⟨t, ht, hidle, hdone⟩ := h.completion_answers hc
  exact ⟨0, Nat.zero_le k, s, t, rfl, hc, rfl, rfl, rfl, rfl, rfl, rfl, rfl, run_succ 0 ht, hidle, hdone⟩

/-- A bus access before the completion touches nothing the command works on (20_memory.md R62). -/
theorem CompletesWithin.of_access {s : State} {p : PortResponse} {viol : Bool} {count k : Nat}
    {rest : List Event}
    (hs : step s = .next { s with pending := rest, port := p, busyViol := viol, badReads := count })
    (h : CompletesWithin k { s with pending := rest, port := p, busyViol := viol, badReads := count }) :
    CompletesWithin (k + 1) s := by
  obtain ⟨n, hn, u, t, hu, hc, hlatch, hphase, hflt, hbits, hkey, hm, hk, ht, hend⟩ := h
  exact ⟨n + 1, Nat.succ_le_succ hn, u, t, (run_succ n hs).trans hu, hc, hlatch, hphase, hflt, hbits, hkey,
    hm, hk, (run_succ (n + 1) hs).trans ht, hend⟩

theorem Inv.completesWithin_pending {s : State} (h : Inv s) (hb : s.busy = true)
    (hr : Event.rst ∉ s.pending) : CompletesWithin s.pending.length s := by
  induction hq : s.pending generalizing s with
  | nil => exact h.completesWithin_of_engineNext hb (.inl ⟨hq, rfl⟩) _
  | cons e rest ih =>
    rw [hq, List.mem_cons, not_or] at hr
    obtain ⟨he, hrest⟩ := hr
    cases e with
    | engine => exact h.completesWithin_of_engineNext hb (.inr hq) _
    | rst => exact absurd rfl he
    | access a =>
      obtain ⟨p, viol, count, hport⟩ := portAccess_while_busy a (s := { s with pending := rest }) hb
      have hs := (step_access hq).trans (congrArg Host.Outcome.next hport)
      exact (ih (h.of_step hs) hb hrest rfl).of_access hs

/-! ### Settled: the step and the commands -/

/-- Settles O3: the engine's turn completes the word in the latch. -/
theorem stepRunsTheDecodedCommand : Obligations.StepRunsTheDecodedCommand := by
  intro s rest i he hb hd
  rw [step_of_busy he hb]
  exact complete_of_decodeWord hd

/-- Settles O5: the latch holds the word of the command whose checks are made, or of no command. -/
theorem checksComeInOrder : Obligations.ChecksComeInOrder := by
  intro s t rest he hb hs
  rw [step_of_busy he hb] at hs
  simp only [← stagedConfigLegal_iff]
  rcases complete_cases hs with ⟨i, hd, hx⟩ | ⟨e, hd, rfl⟩
  · have hlatch : s.cmdLatch = encode i := decodeWord_eq_ok_iff.mp hd
    rw [exec_err hx, hlatch]
    cases i <;> rfl
  · have hno := cmdLatch_ne_encode hd
    have hinit : s.cmdLatch ≠ 0x00000001 := hno .cmdInit
    have hbuild : ¬ (s.cmdLatch = 0x00000002 ∨ s.cmdLatch = 0x00000003) :=
      not_or.mpr ⟨hno .cmdSet, hno .cmdSeal⟩
    have htest : s.cmdLatch ≠ 0x00000004 := hno .cmdTest
    rw [if_neg hinit, if_neg hbuild, if_neg htest]
    rfl

/-- Settles O6: an issue is the write of the register `CMD`; while busy every write is dropped. -/
theorem writeToCmdIssues : Obligations.WriteToCmdIssues := by
  intro s c rest hp
  refine ⟨fun hb => ?_, fun hb => step_write_of_busy (by decide) (by decide) hb hp⟩
  have hissue := step_writeReg (r := .cmd) hb hp
  refine ⟨hissue, fun t ht => ?_⟩
  rw [hissue] at ht
  cases ht
  simp [irq, writeReg]

/-- Settles O8, by induction on the pending events: an access leaves the command in flight and what it
works on, and the engine's turn completes it. -/
theorem commandInFlightCompletes : Obligations.CommandInFlightCompletes :=
  fun _ hi hb hr => hi.completesWithin_pending hb hr

/-! ### The host's turns -/

/-- A turn of the host that waits: one read of `STATUS`. -/
theorem hostTurn_wait {r : HostRun} {rest : List HostOp} (h : r.program = .wait :: rest) :
    hostTurn r = .next ⟨{ r.machine with pending := [], port := .data (statusWord r.machine) },
      if r.machine.busy then .wait :: rest else rest, r.accesses ++ [⟨.read, 32, regOffset .status⟩],
      statusWord r.machine :: r.reads, r.failed⟩ := by
  have hread : portRead { r.machine with pending := [] } (regOffset .status) = statusWord r.machine := rfl
  have hbusy : (statusWord r.machine).getLsbD 0 = r.machine.busy := statusWord_getLsbD r.machine 0
  simp [hostTurn, h, opAccess, step, nextMove, takeEvent, portAccess, regOffset_wellFormed, hread, opsLeft,
    portValue, hbusy, -BitVec.getLsbD_eq_getElem]

/-- A turn of the host at a `require`: met, it goes on; not met, it gives up. -/
theorem hostTurn_require {r : HostRun} {rest : List HostOp} (h : r.program = .require :: rest) :
    hostTurn r = .next (if requireMet r.reads then { r with program := rest }
      else { r with program := [], failed := true }) := by
  simp only [hostTurn, h, opAccess]
  split <;> rfl

theorem takeTurn_env_next {e : Event} {r u : HostRun} (h : takeTurn (.env e) r = .next u) :
    ∃ t, u = { r with machine := t } := by
  simp only [takeTurn] at h
  split at h
  · exact ⟨_, by simpa using h.symm⟩
  · cases h
  · cases h

/-- The writes a host has made and those it has still to make (30_encoding.md R78). -/
def HostRun.allWrites (r : HostRun) : List (Nat × Word) := writesOf r.accesses ++ encoding r.program

/-- A turn of a host that does not give up moves a write from those to come to those made, or none. -/
theorem hostTurn_allWrites {r u : HostRun} (h : hostTurn r = .next u) (hf : u.failed = false) :
    r.failed = false ∧ u.allWrites = r.allWrites := by
  cases hp : r.program with
  | nil =>
    simp only [hostTurn, hp] at h
    cases h
    exact ⟨hf, rfl⟩
  | cons op rest =>
    cases op with
    | wr reg v =>
      rw [hostTurn_wr hp] at h
      cases h
      exact ⟨hf, by simp [HostRun.allWrites, hp, writesOf_append, writesOf, encoding]⟩
    | rd reg =>
      rw [hostTurn_rd hp] at h
      cases h
      exact ⟨hf, by simp [HostRun.allWrites, hp, writesOf_append, writesOf, encoding]⟩
    | wait =>
      rw [hostTurn_wait hp] at h
      cases h
      refine ⟨hf, ?_⟩
      cases r.machine.busy <;> simp [HostRun.allWrites, hp, writesOf_append, writesOf, encoding]
    | require =>
      rw [hostTurn_require hp] at h
      cases hm : requireMet r.reads with
      | true =>
        simp only [hm, if_true] at h
        cases h
        exact ⟨hf, by simp [HostRun.allWrites, hp, encoding]⟩
      | false =>
        simp only [hm] at h
        cases h
        cases hf

theorem takeTurn_allWrites {turn : Turn} {r u : HostRun} (h : takeTurn turn r = .next u)
    (hf : u.failed = false) : r.failed = false ∧ u.allWrites = r.allWrites := by
  cases turn with
  | host => exact hostTurn_allWrites h hf
  | env e =>
    obtain ⟨t, rfl⟩ := takeTurn_env_next h
    exact ⟨hf, rfl⟩

theorem runTurns_allWrites {turns : List Turn} {r u : HostRun} (h : runTurns turns r = .next u)
    (hf : u.failed = false) : r.failed = false ∧ u.allWrites = r.allWrites := by
  induction turns generalizing r with
  | nil => cases h; exact ⟨hf, rfl⟩
  | cons turn turns ih =>
    obtain ⟨v, hturn, hrun⟩ := runTurns_cons_next h
    obtain ⟨hv, hrest⟩ := ih hrun
    obtain ⟨hr, hfirst⟩ := takeTurn_allWrites hturn hv
    exact ⟨hr, hrest.trans hfirst⟩

/-! ### Settled: the host's programs -/

/-- Settles O57: the turn is the one `hostTurn_wait` writes out. -/
theorem waitReadsStatusUntilNotBusy : Obligations.WaitReadsStatusUntilNotBusy := by
  intro r rest h
  exact ⟨_, hostTurn_wait h, rfl, rfl, rfl, rfl, rfl⟩

/-- Settles O58: no turn changes the writes made together with those to come, and at the start all are
to come. -/
theorem hostWritesAreTheEncoding : Obligations.HostWritesAreTheEncoding := by
  intro s ops turns r h hf
  exact (runTurns_allWrites h hf).2

end Sys2Proof.Machine

/-! SUPPORT and PROOFS. The staging registers, and the filter that a list of `SET`s leaves: the bit-set loop
over the probes of all its keys. -/

namespace Sys2Proof.Machine

/-! ### Settled: the staging registers -/

/-- A step that answers `u` has of every answer what it has of `u`. -/
theorem next_and_forall {x : Result} {u : State} {P : State → Prop} (h : x = .next u) (hu : P u) :
    x = .next u ∧ ∀ t, x = .next t → P t :=
  ⟨h, fun _ ht => Host.Outcome.next.inj (h.symm.trans ht) ▸ hu⟩

/-- Settles O13: not busy the write is `writeReg` of its register, which touches no other; busy it is
dropped. -/
theorem stagingWrites : Obligations.StagingWrites := by
  intro s v rest
  refine ⟨fun hp => ⟨fun hb => ?_, fun hb => step_write_of_busy (by decide) (by decide) hb hp⟩,
    fun hp => ⟨fun hb => ?_, fun hb => step_write_of_busy (by decide) (by decide) hb hp⟩⟩
  · exact next_and_forall (step_writeReg (r := .cfgBitCount) hb hp) ⟨rfl, rfl⟩
  · exact next_and_forall (step_writeReg (r := .cfgProbeCount) hb hp) ⟨rfl, rfl⟩

/-! ### Inserting keys one after another -/

theorem setBits_append {W : Nat} {mem out : Memory} {xs ys : List Word} :
    setBits W mem (xs ++ ys) = some out ↔
      ∃ mid, setBits W mem xs = some mid ∧ setBits W mid ys = some out := by
  induction xs generalizing mem with
  | nil => simp [setBits]
  | cons i rest ih =>
    simp only [List.cons_append, setBits_cons, ih]
    exact ⟨fun ⟨m1, h1, mid, h2, h3⟩ => ⟨mid, ⟨m1, h1, h2⟩, h3⟩,
      fun ⟨mid, ⟨m1, h1, h2⟩, h3⟩ => ⟨m1, h1, mid, h2, h3⟩⟩

/-- The probe sequences of the keys, one after another. -/
def probesOfKeys (keys : List DWord) (flt : FilterRecord) : List Word :=
  keys.flatMap fun key => probes key flt

theorem probesOfKeys_cons (key : DWord) (keys : List DWord) (flt : FilterRecord) :
    probesOfKeys (key :: keys) flt = probes key flt ++ probesOfKeys keys flt :=
  List.flatMap_cons

theorem mem_map_probesOfKeys {keys : List DWord} {flt : FilterRecord} {i : Nat} :
    i ∈ (probesOfKeys keys flt).map BitVec.toNat ↔
      ∃ key ∈ keys, ∃ idx ∈ probes key flt, idx.toNat = i := by
  simp only [probesOfKeys, List.mem_map, List.mem_flatMap]
  exact ⟨fun ⟨idx, ⟨key, hkey, hidx⟩, h⟩ => ⟨key, hkey, idx, hidx, h⟩,
    fun ⟨key, hkey, idx, hidx, h⟩ => ⟨idx, ⟨key, hkey, hidx⟩, h⟩⟩

theorem probesOfKeys_perm {keys keys' : List DWord} (h : keys.Perm keys') (flt : FilterRecord) :
    (probesOfKeys keys flt).Perm (probesOfKeys keys' flt) :=
  h.flatMap_right _

/-- `t` is `s`, a filter under construction, with `keys` inserted and nothing else done to the filter
(40_config_sizing.md R101). -/
structure Inserted (s : State) (keys : List DWord) (t : State) : Prop where
  inv : Inv t
  phase : t.phase = .build
  params : t.params = s.params
  flt : t.flt = s.flt
  draws : t.draws = s.draws
  busyViol : t.busyViol = s.busyViol
  bits : setBits s.params.wordWidth.toNat s.bits (probesOfKeys keys s.flt) = some t.bits

namespace Inserted

variable {s t u : State} {key : DWord} {keys : List DWord}

theorem nil (hi : Inv s) (hp : s.phase = .build) : Inserted s [] s := ⟨hi, hp, rfl, rfl, rfl, rfl, rfl⟩

theorem cons (hfirst : Inserted s [key] t) (hrest : Inserted t keys u) : Inserted s (key :: keys) u where
  inv := hrest.inv
  phase := hrest.phase
  params := hrest.params.trans hfirst.params
  flt := hrest.flt.trans hfirst.flt
  draws := hrest.draws.trans hfirst.draws
  busyViol := hrest.busyViol.trans hfirst.busyViol
  bits := by
    have hbits := hrest.bits
    rw [hfirst.params, hfirst.flt] at hbits
    have hkey := hfirst.bits
    rw [probesOfKeys_cons] at hkey ⊢
    exact setBits_append.mpr ⟨t.bits, by simpa [probesOfKeys] using hkey, hbits⟩

/-- A state with the same filter in place of `s`. -/
theorem of_same_filter {s' : State} (h : Inserted s keys t) (hparams : s.params = s'.params)
    (hflt : s.flt = s'.flt) (hdraws : s.draws = s'.draws) (hviol : s.busyViol = s'.busyViol)
    (hbits : s.bits = s'.bits) : Inserted s' keys t :=
  ⟨h.inv, h.phase, h.params.trans hparams, h.flt.trans hflt, h.draws.trans hdraws,
    h.busyViol.trans hviol, hparams ▸ hflt ▸ hbits ▸ h.bits⟩

/-- What the bits are afterwards: those that were 1 before and those the keys' probes name. -/
theorem bitAt_iff (h : Inserted s keys t) (i : Nat) :
    bitAt s.params.wordWidth.toNat t.bits i = some true ↔
      bitAt s.params.wordWidth.toNat s.bits i = some true ∨
        ∃ key ∈ keys, ∃ idx ∈ probes key s.flt, idx.toNat = i := by
  rw [bitAt_setBits h.bits, ← mem_map_probesOfKeys]
  split <;> simp [*]

/-- Every inserted key is held. -/
theorem contains (h : Inserted s keys t) (hkey : key ∈ keys) : Contains t key := by
  intro idx hidx
  rw [h.params]
  rw [h.flt] at hidx
  exact (h.bitAt_iff idx.toNat).mpr (.inr ⟨key, hkey, idx, hidx, rfl⟩)

end Inserted

/-- `SET` in `BUILD` inserts the key (43_set.md R150). -/
theorem Inv.execSet_inserts {s : State} (h : Inv s) (hp : s.phase = .build) :
    ∃ t, exec .cmdSet s = .next t ∧ Inserted s [keyOperand s] t := by
  obtain ⟨mem, hmem⟩ := setBits_completes (W := s.params.wordWidth.toNat) (mem := s.bits)
    (idxs := probes (keyOperand s) s.flt) (fun idx => probe_words_present h (by simp [hp]))
  exact ⟨_, execSet_of_setBits hp hmem, h.of_acceptedSet (by simp [hp]) hmem, hp, rfl, rfl, rfl, rfl,
    by simpa [probesOfKeys] using hmem⟩

theorem highHalf_append_lowHalf (v : DWord) : highHalf v ++ lowHalf v = v :=
  (BitVec.extractLsb'_append_extractLsb'_eq_extractLsb' rfl).trans BitVec.extractLsb'_eq_self

theorem keyOperand_withKey (s : State) (key : DWord) : keyOperand (s.withKey key) = key :=
  highHalf_append_lowHalf key

theorem Inv.withKey {s : State} (h : Inv s) (key : DWord) : Inv (s.withKey key) :=
  h.of_filter_eq rfl rfl rfl Iff.rfl h.busy_not_done h.hit_ready

theorem Inv.execSet_withKey {s : State} (h : Inv s) (hp : s.phase = .build) (key : DWord) :
    ∃ t, exec .cmdSet (s.withKey key) = .next t ∧ Inserted s [key] t := by
  obtain ⟨t, hexec, ht⟩ := (h.withKey key).execSet_inserts hp
  rw [keyOperand_withKey] at ht
  exact ⟨t, hexec, ht.of_same_filter rfl rfl rfl rfl rfl⟩

theorem Inv.insertAll_inserts {s : State} (h : Inv s) (hp : s.phase = .build) (keys : List DWord) :
    ∃ t, insertAll keys s = .next t ∧ Inserted s keys t := by
  induction keys generalizing s with
  | nil => exact ⟨s, rfl, .nil h hp⟩
  | cons key rest ih =>
    obtain ⟨t, hexec, ht⟩ := h.execSet_withKey hp key
    obtain ⟨u, hrun, hu⟩ := ih ht.inv ht.phase
    exact ⟨u, by simp only [insertAll, hexec, hrun], ht.cons hu⟩

/-- A further `SET` of an inserted key sets bits that are set. -/
theorem Inserted.execSet_again {s t : State} {keys : List DWord} {key : DWord} (h : Inserted s keys t)
    (hkey : key ∈ keys) : ∃ u, exec .cmdSet (t.withKey key) = .next u ∧ u.bits = t.bits := by
  obtain ⟨u, hexec, hu⟩ := h.inv.execSet_withKey h.phase key
  have hbits := hu.bits
  have hsame := setBits_of_all_set _ h.inv.memory_wf h.inv.one_le_wordWidth (h.contains hkey)
  simp only [probesOfKeys, List.flatMap_singleton, hsame, Option.some.injEq] at hbits
  exact ⟨u, hexec, hbits.symm⟩

/-! ### Settled: the order of insertion -/

/-- Settles O40: the array afterwards is the bit-set loop over the probes of all keys, and a permutation of
the keys permutes those probes. -/
theorem insertionOrderIsUnobservable : Obligations.InsertionOrderIsUnobservable := by
  intro s keys keys' hi hp hperm
  obtain ⟨t, hrun, ht⟩ := hi.insertAll_inserts hp keys
  obtain ⟨t', hrun', ht'⟩ := hi.insertAll_inserts hp keys'
  have hsame : some t.bits = some t'.bits :=
    (setBits_of_perm hi.one_le_wordWidth hi.memory_wf (probesOfKeys_perm hperm s.flt) ht.bits).symm.trans
      ht'.bits
  exact ⟨t, t', hrun, hrun', Option.some.inj hsame, ht.flt, ht'.flt, ht.phase, ht.bitAt_iff,
    fun key => ht.execSet_again⟩

end Sys2Proof.Machine

/-! SUPPORT and PROOFS. Sizing: the real formula is a function, what its results have in common with the
configuration check of `INIT`, the capacity, and the exactness of the computed sizing. -/

namespace Sys2Proof.Machine

/-! ### Word counts against bit counts -/

/-- The words hold the bits (40_config_sizing.md R103 (b)). -/
theorem le_ceilDiv_mul (m : Nat) {W : Nat} (hW : 1 ≤ W) : m ≤ ceilDiv m W * W := by
  have hdiv := Nat.div_add_mod' (m + W - 1) W
  have hmod := Nat.mod_lt (m + W - 1) hW
  unfold ceilDiv
  omega

/-- The words hold exactly the bits where the bit count is a multiple of the word width. -/
theorem ceilDiv_mul_of_dvd {m W : Nat} (hW : 1 ≤ W) (h : W ∣ m) : ceilDiv m W * W = m := by
  obtain ⟨q, rfl⟩ := h
  have hdiv : (W * q + W - 1) / W = q := by
    rw [Nat.add_sub_assoc hW, Nat.mul_add_div hW, Nat.div_eq_of_lt (by omega), Nat.add_zero]
  rw [ceilDiv, hdiv, Nat.mul_comm]

/-- Otherwise there is at least one slack bit. -/
theorem lt_ceilDiv_mul_of_not_dvd {m W : Nat} (hW : 1 ≤ W) (h : ¬ W ∣ m) : m < ceilDiv m W * W :=
  lt_of_le_of_ne (le_ceilDiv_mul m hW) fun heq => h (Dvd.intro_left _ heq.symm)

theorem ceilDiv_mono {m m' : Nat} (W : Nat) (h : m ≤ m') : ceilDiv m W ≤ ceilDiv m' W :=
  Nat.div_le_div_right (Nat.sub_le_sub_right (Nat.add_le_add_right h W) 1)

/-! ### `Size` is a function of its arguments -/

namespace Size

variable {W count : Nat} {b : ℝ} {z z' : Sizing}

theorem unique (h : Size W count b z) (h' : Size W count b z') : z = z' := by
  obtain ⟨n, m, k, wc⟩ := z
  obtain ⟨n', m', k', wc'⟩ := z'
  obtain ⟨-, hn, hm, hk, hwc⟩ := h
  obtain ⟨-, hn', hm', hk', hwc'⟩ := h'
  dsimp only at hn hm hk hwc hn' hm' hk' hwc'
  obtain rfl := hn.trans hn'.symm
  obtain rfl := Int.natCast_inj.mp (hm.trans hm'.symm)
  obtain rfl := Int.natCast_inj.mp (hk.trans hk'.symm)
  obtain rfl := hwc.trans hwc'.symm
  rfl

/-- A number that is at least 1 is a natural number. -/
theorem exists_natCast_eq_max_one (x : ℤ) : ∃ n : ℕ, (n : ℤ) = max 1 x :=
  ⟨(max 1 x).toNat, Int.toNat_of_nonneg (zero_le_one.trans (le_max_left 1 x))⟩

theorem exists_of_pos (W count : Nat) (hb : 0 < b) : ∃ z, Size W count b z := by
  obtain ⟨m, hm⟩ := exists_natCast_eq_max_one ⌊((max 1 count : ℕ) : ℝ) * b + 1 / 2⌋
  obtain ⟨k, hk⟩ :=
    exists_natCast_eq_max_one ⌊(m : ℝ) / ((max 1 count : ℕ) : ℝ) * Real.log 2 + 1 / 2⌋
  exact ⟨⟨max 1 count, m, k, ceilDiv m W⟩, hb, rfl, hm, hk, rfl⟩

theorem bitsPerKey_pos (h : Size W count b z) : 0 < b := h.1

theorem one_le_n (h : Size W count b z) : 1 ≤ z.n := by
  obtain ⟨-, hn, -⟩ := h
  exact hn ▸ le_max_left 1 count

theorem one_le_m (h : Size W count b z) : 1 ≤ z.m := by
  obtain ⟨-, -, hm, -⟩ := h
  exact_mod_cast hm ▸ le_max_left 1 _

theorem one_le_k (h : Size W count b z) : 1 ≤ z.k := by
  obtain ⟨-, -, -, hk, -⟩ := h
  exact_mod_cast hk ▸ le_max_left 1 _

theorem wc_eq (h : Size W count b z) : z.wc = ceilDiv z.m W := by
  obtain ⟨-, -, -, -, hwc⟩ := h
  exact hwc

/-- The budget is positive. -/
theorem budget_pos (h : Size W count b z) : 0 < (z.n : ℝ) * b :=
  mul_pos (Nat.cast_pos.mpr h.one_le_n) h.bitsPerKey_pos

/-- The rounding of the budget loses less than half a bit (40_config_sizing.md R103 (b)). -/
theorem budget_lt (h : Size W count b z) : (z.n : ℝ) * b < z.m + 1 / 2 := by
  obtain ⟨-, -, hm, -⟩ := h
  have hfloor : ((⌊(z.n : ℝ) * b + 1 / 2⌋ : ℤ) : ℝ) ≤ (z.m : ℝ) := by
    exact_mod_cast hm ▸ le_max_right 1 _
  linarith [Int.lt_floor_add_one ((z.n : ℝ) * b + 1 / 2)]

theorem m_mono {more : ℝ} (h : Size W count b z) (h' : Size W count more z') (hle : b ≤ more) :
    z.m ≤ z'.m := by
  obtain ⟨-, hn, hm, -⟩ := h
  obtain ⟨-, hn', hm', -⟩ := h'
  have hbudget : (z.n : ℝ) * b + 1 / 2 ≤ (z'.n : ℝ) * more + 1 / 2 := by
    rw [hn, hn']
    gcongr
  have hint : (z.m : ℤ) ≤ z'.m := by
    rw [hm, hm']
    exact max_le_max_left 1 (Int.floor_le_floor hbudget)
  exact_mod_cast hint

/-- A budget that is an integer is met exactly. -/
theorem m_eq_of_budget (h : Size W count b z) {budget : ℕ} (hbudget : (z.n : ℝ) * b = budget) :
    z.m = budget := by
  have hpos : 1 ≤ budget := by
    have := h.budget_pos
    rw [hbudget] at this
    exact_mod_cast this
  obtain ⟨-, -, hm, -⟩ := h
  have hfloor : ⌊(budget : ℝ) + 1 / 2⌋ = budget := by
    rw [Int.floor_eq_iff]
    constructor <;> push_cast <;> linarith
  rw [hbudget, hfloor, max_eq_right (by exact_mod_cast hpos)] at hm
  exact_mod_cast hm

end Size

/-! ### Settled: the capacity -/

/-- The source's counterexample (40_config_sizing.md R103): 64.4 bits round to 64, which fill one word. -/
theorem size_ten_keys : Size 64 10 (644 / 100) ⟨10, 64, 4, 1⟩ := by
  have hm : ⌊((10 : ℕ) : ℝ) * (644 / 100) + 1 / 2⌋ = 64 := by
    rw [Int.floor_eq_iff]
    norm_num
  have hk : ⌊((64 : ℕ) : ℝ) / ((10 : ℕ) : ℝ) * Real.log 2 + 1 / 2⌋ = 4 := by
    rw [Int.floor_eq_iff]
    push_cast
    constructor <;> linarith [Real.log_two_gt_d9, Real.log_two_lt_d9]
  exact ⟨by norm_num, by decide, by rw [hm]; rfl, by rw [hk]; rfl, by decide⟩

/-- Settles O55: the rounding loses less than half a bit, and the words hold either exactly the bits or at
least one more. -/
theorem capacityAgainstTheBudget : Obligations.CapacityAgainstTheBudget := by
  refine ⟨size_ten_keys, fun W count b z hW h => ?_⟩
  have hlt := h.budget_lt
  have hcap : (z.m : ℝ) ≤ z.wc * W := by
    rw [h.wc_eq]
    exact_mod_cast le_ceilDiv_mul z.m hW
  have hslack (hdvd : ¬ W ∣ z.m) : z.m + 1 ≤ z.wc * W := by
    rw [h.wc_eq]
    exact lt_ceilDiv_mul_of_not_dvd hW hdvd
  refine ⟨fun more z' hle h' => ?_, by exact_mod_cast hcap, by linarith, ⟨fun hshort => ?_, ?_⟩,
    fun hdvd => ⟨hslack hdvd, by linarith⟩, fun budget => h.m_eq_of_budget⟩
  · have hm := h.m_mono h' hle
    have hwc : z.wc ≤ z'.wc := by
      rw [h.wc_eq, h'.wc_eq]
      exact ceilDiv_mono W hm
    exact ⟨hm, hwc, Nat.mul_le_mul_right W hwc⟩
  · refine ⟨by_contra fun hdvd => ?_, hcap.trans_lt hshort, hlt⟩
    have hone : (z.m : ℝ) + 1 ≤ z.wc * W := by exact_mod_cast hslack hdvd
    linarith
  · rintro ⟨hdvd, hround, -⟩
    rw [h.wc_eq]
    have hexact : ((ceilDiv z.m W * W : ℕ) : ℝ) = z.m := by rw [ceilDiv_mul_of_dvd hW hdvd]
    push_cast at hexact
    rwa [hexact]

/-! ### Feasible sizings and `INIT` -/

/-- What an accepted `INIT` answers (41_lifecycle.md R110). -/
theorem execInit_of_legal {s : State} (h : stagedConfigLegal s = true) :
    exec .cmdInit s = .next (publish .none false
      { s with flt := newRecord s, bits := zeroWords (stagedWordCount s) s.bits,
               draws := s.draws + 1, phase := .build }) :=
  (execInit_eq s).trans (if_pos h)

/-- What a refused `INIT` answers (41_lifecycle.md R111, R112). -/
theorem execInit_of_illegal {s : State} (h : stagedConfigLegal s = false) :
    exec .cmdInit s = .next (publish .cfg false s) :=
  (execInit_eq s).trans (if_neg (by simp [h]))

/-- The staging registers hold the configuration of a sizing that the host found feasible. -/
structure StagesSizing (s : State) (z : Sizing) : Prop where
  legal : stagedConfigLegal s = true
  bitCount : s.cfgBitCount.toNat = z.m
  probeCount : s.cfgProbeCount.toNat = z.k
  wordCount : stagedWordCount s = z.wc

/-- The host's feasibility check implies the check of `INIT` (40_config_sizing.md R97, 41_lifecycle.md
R111). -/
theorem Size.stages {s : State} {count : Nat} {b : ℝ} {z : Sizing}
    (h : Size s.params.wordWidth.toNat count b z) (hf : z.feasible s.params = true)
    (hm : s.cfgBitCount = BitVec.ofNat 32 z.m) (hk : s.cfgProbeCount = BitVec.ofNat 32 z.k) :
    StagesSizing s z := by
  simp only [Sizing.feasible, Bool.and_eq_true, decide_eq_true_eq] at hf
  obtain ⟨⟨hmax, hwords⟩, hkmax⟩ := hf
  have hbit : s.cfgBitCount.toNat = z.m := by
    rw [hm, BitVec.toNat_ofNat, Nat.mod_eq_of_lt (by omega)]
  have hprobe : s.cfgProbeCount.toNat = z.k := by
    rw [hk, BitVec.toNat_ofNat, Nat.mod_eq_of_lt (hkmax.trans_lt s.params.kMax.isLt)]
  have hword : stagedWordCount s = z.wc := by rw [stagedWordCount, hbit, h.wc_eq]
  refine ⟨?_, hbit, hprobe, hword⟩
  simp [stagedConfigLegal, hbit, hprobe, hword, h.one_le_m, h.one_le_k, hkmax, hwords]

/-- The record that `INIT` then makes is the sizing's (41_lifecycle.md R110). -/
theorem StagesSizing.newRecord_toNat {s : State} {z : Sizing} (h : StagesSizing s z) :
    (newRecord s).m.toNat = z.m ∧ (newRecord s).k.toNat = z.k ∧ (newRecord s).wc.toNat = z.wc :=
  ⟨h.bitCount, h.probeCount, (toNat_newRecord_wc h.legal).trans h.wordCount⟩

/-- Settles O56: the sizing is staged, so `INIT` accepts it and makes its record. -/
theorem feasibleSizingIsAccepted : Obligations.FeasibleSizingIsAccepted := by
  intro s count b z h hf hm hk
  have hstages := h.stages hf hm hk
  exact ⟨_, execInit_of_legal hstages.legal, rfl, hstages.newRecord_toNat⟩

/-! ### The two bounds of `ln 2` -/

/-- `2 * artanh (1/3)` is `ln 2`; its series gains a digit a term. -/
theorem log_two_eq_log_third : Real.log 2 = Real.log ((1 + 1 / 3) / (1 - 1 / 3)) := by
  norm_num

theorem lnTwoBelow_le_log_two : (lnTwoBelow : ℝ) / lnTwoDenominator ≤ Real.log 2 := by
  have hseries := Real.sum_range_le_log_div (x := 1 / 3) (by norm_num) (by norm_num) 46
  rw [← log_two_eq_log_third] at hseries
  have hsum : (lnTwoBelow : ℝ) / lnTwoDenominator ≤
      2 * ∑ i ∈ Finset.range 46, (1 / 3 : ℝ) ^ (2 * i + 1) / (2 * i + 1) := by
    norm_num [Finset.sum_range_succ, lnTwoBelow, lnTwoDenominator]
  linarith

theorem log_two_le_lnTwoAbove : Real.log 2 ≤ ((lnTwoBelow + 1 : ℕ) : ℝ) / lnTwoDenominator := by
  have hseries := Real.log_div_le_sum_range_add (x := 1 / 3) (by norm_num) (by norm_num) 46
  rw [← log_two_eq_log_third] at hseries
  have hsum : 2 * ((∑ i ∈ Finset.range 46, (1 / 3 : ℝ) ^ (2 * i + 1) / (2 * i + 1)) +
        (1 / 3) ^ (2 * 46 + 1) / (1 - (1 / 3) ^ 2)) ≤
      ((lnTwoBelow + 1 : ℕ) : ℝ) / lnTwoDenominator := by
    norm_num [Finset.sum_range_succ, lnTwoBelow, lnTwoDenominator]
  linarith

/-- The denominator of a fraction strictly between two neighbours is at least the sum of theirs. -/
theorem add_le_of_between_neighbours {a b c d p q : ℤ} (hdet : b * c - a * d = 1) (hb : 0 < b)
    (hd : 0 < d) (hlow : a * q < b * p) (hhigh : d * p < c * q) : b + d ≤ q := by
  have hq : q = b * (c * q - d * p) + d * (b * p - a * q) := by linear_combination (-q) * hdet
  have h1 : b ≤ b * (c * q - d * p) := le_mul_of_one_le_right hb.le (by omega)
  have h2 : d ≤ d * (b * p - a * q) := le_mul_of_one_le_right hd.le (by omega)
  omega

/-! ### What the computation rounds -/

theorem natCast_roundFraction (x : Nat) {y : Nat} (hy : 1 ≤ y) :
    (roundFraction x y : ℤ) = ⌊(x : ℝ) / y + 1 / 2⌋ := by
  have hy' : (y : ℝ) ≠ 0 := by positivity
  have hfrac : (x : ℝ) / y + 1 / 2 = ((2 * x + y : ℕ) : ℝ) / ((2 * y : ℕ) : ℝ) := by
    push_cast
    field_simp
  rw [hfrac, ← Int.natCast_floor_eq_floor (by positivity), Nat.floor_div_eq_div]
  rfl

theorem natCast_sizeBits (n : Nat) {b : ℚ} (hb : 0 < b) :
    (sizeBits n b : ℤ) = max 1 ⌊(n : ℝ) * (b : ℝ) + 1 / 2⌋ := by
  have hnum : ((b.num.toNat : ℕ) : ℝ) = (b.num : ℝ) := by
    exact_mod_cast Int.toNat_of_nonneg (Rat.num_nonneg.mpr hb.le)
  have hbudget : ((n * b.num.toNat : ℕ) : ℝ) / b.den = n * (b : ℝ) := by
    rw [Nat.cast_mul, hnum, Rat.cast_def, mul_div_assoc]
  rw [sizeBits, Nat.cast_max, natCast_roundFraction _ b.den_pos, hbudget, Nat.cast_one]

/-- `round((m / n) * ln 2)` with the lower of the two bounds of `ln 2`, and with the upper one. -/
def probesBelow (m n : Nat) : Nat := roundFraction (m * lnTwoBelow) (n * lnTwoDenominator)
def probesAbove (m n : Nat) : Nat := roundFraction (m * (lnTwoBelow + 1)) (n * lnTwoDenominator)

theorem sizeProbes_eq (m n : Nat) :
    sizeProbes m n = if probesBelow m n = probesAbove m n then some (max 1 (probesBelow m n)) else none := rfl

theorem one_le_mul_lnTwoDenominator {n : Nat} (hn : 1 ≤ n) : 1 ≤ n * lnTwoDenominator :=
  Nat.mul_pos hn (by decide)

theorem natCast_mul_div_mul (m n x : Nat) :
    ((m * x : ℕ) : ℝ) / ((n * lnTwoDenominator : ℕ) : ℝ) = m / n * (x / lnTwoDenominator) := by
  push_cast
  exact mul_div_mul_comm _ _ _ _

/-- The real rounding lies between the two. -/
theorem probesBelow_le_floor (m : Nat) {n : Nat} (hn : 1 ≤ n) :
    (probesBelow m n : ℤ) ≤ ⌊(m : ℝ) / n * Real.log 2 + 1 / 2⌋ := by
  rw [probesBelow, natCast_roundFraction _ (one_le_mul_lnTwoDenominator hn), natCast_mul_div_mul]
  gcongr
  exact lnTwoBelow_le_log_two

theorem floor_le_probesAbove (m : Nat) {n : Nat} (hn : 1 ≤ n) :
    ⌊(m : ℝ) / n * Real.log 2 + 1 / 2⌋ ≤ (probesAbove m n : ℤ) := by
  rw [probesAbove, natCast_roundFraction _ (one_le_mul_lnTwoDenominator hn), natCast_mul_div_mul]
  gcongr
  exact log_two_le_lnTwoAbove

theorem natCast_of_sizeProbes {m n k : Nat} (hn : 1 ≤ n) (h : sizeProbes m n = some k) :
    (k : ℤ) = max 1 ⌊(m : ℝ) / n * Real.log 2 + 1 / 2⌋ := by
  rw [sizeProbes_eq] at h
  split at h
  · rename_i hagree
    have hhigh := floor_le_probesAbove m hn
    rw [← hagree] at hhigh
    rw [le_antisymm hhigh (probesBelow_le_floor m hn), ← Option.some.inj h]
    norm_cast
  · cases h

/-- Both bounds of `ln 2` lie between the neighbours 6847196937/9878417065 and 497083768/717140287. A
half-integer `j - 1/2` between the two roundings would be a fraction `n * (2 * j - 1) / (2 * m)` between these
neighbours, and those have denominators above `2 ^ 33`. -/
theorem probesBelow_eq_probesAbove {m n : Nat} (hm : 1 ≤ m) (hmax : m < 2 ^ 32) (hn : 1 ≤ n) :
    probesBelow m n = probesAbove m n := by
  have hle : probesBelow m n ≤ probesAbove m n := by
    exact_mod_cast (probesBelow_le_floor m hn).trans (floor_le_probesAbove m hn)
  refine hle.eq_of_not_lt fun hlt => ?_
  have hpos : 0 < 2 * (n * lnTwoDenominator) := by have := one_le_mul_lnTwoDenominator hn; omega
  have hlow : 2 * (m * lnTwoBelow) + n * lnTwoDenominator <
      probesAbove m n * (2 * (n * lnTwoDenominator)) := (Nat.div_lt_iff_lt_mul hpos).mp hlt
  have hhigh : probesAbove m n * (2 * (n * lnTwoDenominator)) ≤
      2 * (m * (lnTwoBelow + 1)) + n * lnTwoDenominator := Nat.div_mul_le_self _ _
  generalize probesAbove m n = j at hlow hhigh
  zify [lnTwoBelow, lnTwoDenominator] at hm hmax hlow hhigh
  have hdenominators := add_le_of_between_neighbours (a := 6847196937) (b := 9878417065)
    (c := 497083768) (d := 717140287) (p := n * (2 * j - 1)) (q := 2 * m)
    (by decide) (by decide) (by decide) (by linarith) (by linarith)
  linarith

theorem sizeProbes_answers {m n k : Nat} (hm : 1 ≤ m) (hmax : m < 2 ^ 32) (hn : 1 ≤ n)
    (hk : (k : ℤ) = max 1 ⌊(m : ℝ) / n * Real.log 2 + 1 / 2⌋) : sizeProbes m n = some k := by
  obtain ⟨k', hk'⟩ : ∃ k', sizeProbes m n = some k' :=
    ⟨_, if_pos (probesBelow_eq_probesAbove hm hmax hn)⟩
  rw [hk', Int.natCast_inj.mp ((natCast_of_sizeProbes hn hk').trans hk.symm)]

/-! ### Settled: the sizing -/

theorem sizeFilter_eq_some_iff {W count : Nat} {b : ℚ} {z : Sizing} :
    sizeFilter W count b = some z ↔
      0 < b ∧ z.n = max 1 count ∧ z.m = sizeBits z.n b ∧ sizeProbes z.m z.n = some z.k ∧
        z.wc = ceilDiv z.m W := by
  obtain ⟨n, m, k, wc⟩ := z
  unfold sizeFilter
  by_cases hb : 0 < b
  · rw [if_pos hb]
    dsimp only
    constructor
    · intro h
      split at h
      · rename_i hk
        cases h
        exact ⟨hb, rfl, rfl, hk, rfl⟩
      · cases h
    · rintro ⟨-, rfl, rfl, hk, rfl⟩
      rw [hk]
  · simp [hb]

/-- What the computation answers is a `Size`. -/
theorem size_of_sizeFilter {W count : Nat} {b : ℚ} {z : Sizing} (h : sizeFilter W count b = some z) :
    Size W count (b : ℝ) z := by
  obtain ⟨hb, hn, hm, hk, hwc⟩ := sizeFilter_eq_some_iff.mp h
  have hn1 : 1 ≤ z.n := hn ▸ le_max_left 1 count
  exact ⟨Rat.cast_pos.mpr hb, hn, hm ▸ natCast_sizeBits z.n hb, natCast_of_sizeProbes hn1 hk, hwc⟩

/-- Every `Size` whose `m` a register can hold is computed. -/
theorem sizeFilter_of_size {W count : Nat} {b : ℚ} {z : Sizing} (h : Size W count (b : ℝ) z)
    (hmax : z.m < 2 ^ 32) : sizeFilter W count b = some z := by
  have hprobes := sizeProbes_answers (k := z.k) h.one_le_m hmax h.one_le_n
  obtain ⟨hb, hn, hm, hk, hwc⟩ := h
  have hb' : 0 < b := Rat.cast_pos.mp hb
  exact sizeFilter_eq_some_iff.mpr
    ⟨hb', hn, Int.natCast_inj.mp (hm.trans (natCast_sizeBits z.n hb').symm), hprobes hk, hwc⟩

/-- Settles O54: `Size` is a function on the positive reals; the computation rounds between two bounds of
`ln 2`, and no half-integer lies between them while `m` is below `2 ^ 32`. -/
theorem sizingAgreesWithTheRealFormula : Obligations.SizingAgreesWithTheRealFormula := by
  intro W count
  refine ⟨fun b => ⟨fun hb => ?_, fun z h => h.bitsPerKey_pos⟩, fun b => ⟨fun z => size_of_sizeFilter,
    fun z => sizeFilter_of_size⟩⟩
  obtain ⟨z, hz⟩ := Size.exists_of_pos W count hb
  exact ⟨z, hz, fun z' hz' => hz'.unique hz⟩

end Sys2Proof.Machine

/-! SUPPORT and PROOFS. A host that waits for each of its commands, beside an engine that may take its turns at
any time: it comes to where the same commands lead one after another. Then the procedure that builds a
filter. -/

namespace Sys2Proof.Machine

/-! ### A state as the bus has left it -/

/-- `s` with nothing pending and the port's answer `p`: what the host's own accesses leave of `s`. -/
def State.onBus (s : State) (p : PortResponse) : State := { s with pending := [], port := p }

@[simp] theorem onBus_busy (s : State) (p : PortResponse) : (s.onBus p).busy = s.busy := rfl

theorem exec_onBus {i : Instr} {s t : State} (h : exec i s = .next t) (p : PortResponse) :
    exec i (s.onBus p) = .next (t.onBus p) := by
  rcases exec_cases h with ⟨rfl, hl, rfl⟩ | ⟨rfl, hl, rfl⟩ | ⟨rfl, hp, mem, hm, rfl⟩ | ⟨rfl, hp, rfl⟩ |
    ⟨rfl, hp, answer, ha, rfl⟩ | ⟨⟨rfl, hp⟩ | ⟨rfl, hp⟩ | ⟨rfl, hp⟩, rfl⟩
  · exact execInit_of_legal hl
  · exact execInit_of_illegal hl
  · exact execSet_of_setBits hp hm
  · exact (execSeal_eq _).trans (if_pos hp)
  · exact execTest_of_testBits hp ha
  · exact execSet_of_wrongPhase hp
  · exact (execSeal_eq _).trans (if_neg hp)
  · exact execTest_of_wrongPhase hp

/-- The engine reads neither the port nor what is pending. -/
theorem engineTurn_onBus {s t : State} (h : engineTurn s = .next t) (p : PortResponse) :
    engineTurn (s.onBus p) = .next (t.onBus p) := by
  rcases engineTurn_cases h with ⟨hb, hc⟩ | ⟨hb, rfl⟩
  · rw [engineTurn_of_busy (s := s.onBus p) hb]
    rcases complete_cases hc with ⟨i, hd, hx⟩ | ⟨e, hd, rfl⟩
    · rw [complete_of_decodeWord (s := s.onBus p) hd]
      exact exec_onBus hx p
    · exact complete_of_illegal (s := s.onBus p) hd
  · exact engineTurn_of_idle hb

theorem portWrite_regOffset {reg : Reg} {v : Word} {s : State} (hb : s.busy = false) :
    portWrite (regOffset reg) v s = writeReg reg v s := by
  simp [portWrite, hb]

theorem writeReg_onBus (reg : Reg) (v : Word) (s : State) (p : PortResponse) :
    writeReg reg v (s.onBus p) = (writeReg reg v s).onBus p := by
  cases reg <;> rfl

theorem readReg_onBus (s : State) (p : PortResponse) (reg : Reg) :
    readReg (s.onBus p) reg = readReg s reg := by
  cases reg <;> rfl

/-- After its turn the engine is idle. -/
theorem engineTurn_idle {s t : State} (h : engineTurn s = .next t) : t.busy = false := by
  rcases engineTurn_cases h with ⟨-, hc⟩ | ⟨hb, rfl⟩
  · obtain ⟨-, -, -, hidle, -⟩ := complete_frame hc
    exact hidle
  · exact hb

theorem requireMet_statusWord (s : State) (reads : List Word) :
    requireMet (statusWord s :: reads) = decide (s.err = .none) := by
  rw [requireMet, statusWord_err]
  cases s.err <;> rfl

theorem hostTurn_require_met {r : HostRun} {rest : List HostOp} (h : r.program = .require :: rest)
    (hmet : requireMet r.reads = true) : hostTurn r = .next { r with program := rest } := by
  rw [hostTurn_require h, if_pos hmet]

theorem hostTurn_require_unmet {r : HostRun} {rest : List HostOp} (h : r.program = .require :: rest)
    (hmet : ¬ requireMet r.reads = true) : hostTurn r = .next { r with program := [], failed := true } := by
  rw [hostTurn_require h, if_neg hmet]

/-- The engine's turn after the issue of a command. -/
theorem engineTurn_issue (i : Instr) (s : State) :
    engineTurn (issue (encode i) s) = exec i (issue (encode i) s) :=
  (engineTurn_of_busy rfl).trans (complete_of_decodeWord (decodeWord_eq_ok_iff.mpr rfl))

/-! ### Where a program leads, one command after another -/

section
variable (Always AtEnd : Bool → State → Prop)

/-- A host that has these operations left, in `s`, writes and reads with no command in flight, and each of
its waits completes the command before it; on the way `Always` holds, and at its end `AtEnd`. The flag of
both is whether the host has given up; `met` is whether a `require` would be met now (log 17). -/
def LeadsTo : List HostOp → (failed met : Bool) → State → Prop
  | [], failed, _, s => Always failed s ∧ s.busy = false ∧ AtEnd failed s
  | .wr reg v :: rest, failed, met, s =>
    Always failed s ∧ s.busy = false ∧ LeadsTo rest failed met (writeReg reg v s)
  | .rd reg :: rest, failed, _, s =>
    Always failed s ∧ s.busy = false ∧ LeadsTo rest failed (requireMet [readReg s reg]) s
  | .wait :: rest, failed, _, s =>
    Always failed s ∧ ∃ t, engineTurn s = .next t ∧ LeadsTo rest failed (decide (t.err = .none)) t
  | .require :: rest, failed, met, s =>
    Always failed s ∧ s.busy = false ∧
      if met = true then LeadsTo rest failed met s else Always true s ∧ AtEnd true s

/-- The run is where its program leads from, but for the bus. -/
def OnTrack (r : HostRun) : Prop :=
  ∃ s p, r.machine = s.onBus p ∧ LeadsTo Always AtEnd r.program r.failed (requireMet r.reads) s

variable {Always AtEnd}

theorem LeadsTo.always {ops : List HostOp} {failed met : Bool} {s : State}
    (h : LeadsTo Always AtEnd ops failed met s) : Always failed s := by
  match ops with
  | [] | .wr _ _ :: _ | .rd _ :: _ | .wait :: _ | .require :: _ => exact h.1

/-- Only a wait can find a command in flight. -/
theorem LeadsTo.idle_or_wait {ops : List HostOp} {failed met : Bool} {s : State}
    (h : LeadsTo Always AtEnd ops failed met s) : s.busy = false ∨ ∃ rest, ops = .wait :: rest := by
  match ops with
  | [] | .wr _ _ :: _ | .rd _ :: _ | .require :: _ => exact .inl h.2.1
  | .wait :: rest => exact .inr ⟨rest, rfl⟩

/-- A turn of the engine does not change where a program leads. -/
theorem LeadsTo.engine {ops : List HostOp} {failed met : Bool} {s : State}
    (h : LeadsTo Always AtEnd ops failed met s) :
    ∃ t, engineTurn s = .next t ∧ LeadsTo Always AtEnd ops failed met t := by
  rcases h.idle_or_wait with hb | ⟨rest, rfl⟩
  · exact ⟨s, engineTurn_of_idle hb, h⟩
  · obtain ⟨-, t, ht, hrest⟩ := h
    exact ⟨t, ht, hrest.always, t, engineTurn_of_idle (engineTurn_idle ht), hrest⟩

theorem OnTrack.engine {r : HostRun} (h : OnTrack Always AtEnd r) :
    ∃ u, takeTurn (.env .engine) r = .next u ∧ OnTrack Always AtEnd u ∧ u.program = r.program ∧
      u.machine.busy = false := by
  obtain ⟨s, p, hm, hlead⟩ := h
  obtain ⟨t, ht, hlead'⟩ := hlead.engine
  have hstep : step { r.machine with pending := [.engine] } = .next (t.onBus p) := by
    rw [step_of_engineNext (.inr rfl), hm]
    exact engineTurn_onBus ht p
  exact ⟨_, takeTurn_env hstep, ⟨t, p, rfl, hlead'⟩, rfl, (engineTurn_idle ht : t.busy = false)⟩

/-- A turn of the host keeps the run on its track; with no command in flight an operation is done. -/
theorem OnTrack.host {r : HostRun} (h : OnTrack Always AtEnd r) :
    ∃ u, hostTurn r = .next u ∧ OnTrack Always AtEnd u ∧
      (r.machine.busy = false → u.program.length ≤ r.program.length - 1) := by
  obtain ⟨machine, program, accesses, reads, failed⟩ := r
  obtain ⟨s, p, hm, hlead⟩ := h
  obtain rfl : machine = s.onBus p := hm
  match program with
  | [] => exact ⟨_, rfl, ⟨s, p, rfl, hlead⟩, fun _ => le_rfl⟩
  | .wr reg v :: rest =>
    obtain ⟨-, hb, hrest⟩ := hlead
    refine ⟨_, hostTurn_wr rfl, ⟨writeReg reg v s, .written, ?_, hrest⟩, fun _ => le_rfl⟩
    have hwrite : portWrite (regOffset reg) v (s.onBus p) = (writeReg reg v s).onBus p :=
      (portWrite_regOffset (s := s.onBus p) hb).trans (writeReg_onBus reg v s p)
    exact congrArg (fun m => { m with port := .written }) hwrite
  | .rd reg :: rest =>
    obtain ⟨-, hb, hrest⟩ := hlead
    refine ⟨_, hostTurn_rd rfl, ⟨s, _, rfl, ?_⟩, fun _ => le_rfl⟩
    rw [readReg_onBus]
    exact hrest
  | .wait :: rest =>
    obtain ⟨halways, t, ht, hrest⟩ := hlead
    refine ⟨_, hostTurn_wait rfl, ⟨s, _, rfl, ?_⟩, fun (hb : s.busy = false) => by simp [hb]⟩
    change LeadsTo Always AtEnd (if s.busy = true then .wait :: rest else rest) failed
      (requireMet (statusWord s :: reads)) s
    cases hb : s.busy with
    | true => exact ⟨halways, t, ht, hrest⟩
    | false =>
      obtain rfl : s = t := Host.Outcome.next.inj ((engineTurn_of_idle hb).symm.trans ht)
      rw [requireMet_statusWord]
      exact hrest
  | .require :: rest =>
    obtain ⟨-, hb, hrest⟩ := hlead
    by_cases hmet : requireMet reads = true
    · rw [if_pos hmet] at hrest
      exact ⟨_, hostTurn_require_met rfl hmet, ⟨s, p, rfl, hrest⟩, fun _ => le_rfl⟩
    · rw [if_neg hmet] at hrest
      obtain ⟨halways, hend⟩ := hrest
      exact ⟨_, hostTurn_require_unmet rfl hmet, ⟨s, p, rfl, halways, hb, hend⟩, fun _ => Nat.zero_le _⟩

/-- Whatever the turns of host and engine, nothing stops and the run stays on its track. -/
theorem OnTrack.runTurns {turns : List Turn} {r : HostRun} (h : OnTrack Always AtEnd r)
    (hturns : hostAndEngine turns = true) :
    ∃ u, runTurns turns r = .next u ∧ OnTrack Always AtEnd u := by
  induction turns generalizing r with
  | nil => exact ⟨r, rfl, h⟩
  | cons turn turns ih =>
    simp only [hostAndEngine, List.all_cons, Bool.and_eq_true, Bool.or_eq_true, decide_eq_true_eq] at hturns
    obtain ⟨rfl | rfl, hrest⟩ := hturns
    · obtain ⟨u, hu, htrack, -⟩ := h.host
      rw [runTurns_cons (turn := .host) hu]
      exact ih htrack hrest
    · obtain ⟨u, hu, htrack, -⟩ := h.engine
      rw [runTurns_cons hu]
      exact ih htrack hrest

/-- When engine and host take turns, each two turns do an operation. -/
theorem OnTrack.runTurns_alternating {n : Nat} {r u : HostRun} (h : OnTrack Always AtEnd r)
    (hn : r.program.length ≤ n) (hrun : Machine.runTurns (alternating n) r = .next u) : u.program = [] := by
  induction n generalizing r with
  | zero =>
    cases hrun
    exact List.eq_nil_of_length_eq_zero (Nat.le_zero.mp hn)
  | succ n ih =>
    obtain ⟨v, hv, htrack, hprogram, hb⟩ := h.engine
    obtain ⟨w, hw, htrack', hless⟩ := htrack.host
    rw [alternating, runTurns_cons hv, runTurns_cons (turn := .host) hw] at hrun
    refine ih htrack' ((hless hb).trans ?_) hrun
    rw [hprogram]
    omega

/-- Where a run of the program comes to, whatever the turns of host and engine: nothing stops, `Always`
holds, at its end `AtEnd` holds, and it does come to its end when engine and host take turns. -/
theorem LeadsTo.runTurns_start {ops : List HostOp} {turns : List Turn} {s : State}
    (h : LeadsTo Always AtEnd ops false false s) (hturns : hostAndEngine turns = true) :
    ∃ r t p, runTurns turns (HostRun.start s ops) = .next r ∧ r.machine = t.onBus p ∧ Always r.failed t ∧
      (r.program = [] → t.busy = false ∧ AtEnd r.failed t) ∧
      (turns = alternating ops.length → r.program = []) := by
  have hstart : OnTrack Always AtEnd (HostRun.start s ops) := ⟨s, s.port, rfl, h⟩
  obtain ⟨r, hrun, t, p, hm, hlead⟩ := hstart.runTurns hturns
  refine ⟨r, t, p, hrun, hm, hlead.always, fun hend => ?_, fun halt => ?_⟩
  · rw [hend] at hlead
    exact hlead.2
  · rw [halt] at hrun
    exact hstart.runTurns_alternating le_rfl hrun

/-! ### Commands and the construction, as parts of a program -/

/-- A command and its wait. -/
theorem LeadsTo.command {i : Instr} {rest : List HostOp} {failed met : Bool} {s t : State}
    (hb : s.busy = false) (hexec : exec i (issue (encode i) s) = .next t) (hbefore : Always failed s)
    (hissued : Always failed (issue (encode i) s))
    (hrest : LeadsTo Always AtEnd rest failed (decide (t.err = .none)) t) :
    LeadsTo Always AtEnd (commandOp i :: .wait :: rest) failed met s :=
  ⟨hbefore, hb, hissued, t, (engineTurn_issue i s).trans hexec, hrest⟩

/-- `s` with a configuration staged and an `INIT` issued. -/
def State.initIssued (s : State) (m k : Word) : State :=
  issue (encode .cmdInit) { s with cfgBitCount := m, cfgProbeCount := k }

theorem filterOps_eq (between : List HostOp) (m k : Word) (keys : List DWord) :
    filterOps between m k keys =
      .wr .cfgBitCount m :: .wr .cfgProbeCount k :: commandOp .cmdInit :: .wait ::
        (between ++ (keys.flatMap insertOps ++ [commandOp .cmdSeal, .wait])) := by
  simp [filterOps, cfgOps]

/-- The construction up to the wait after `INIT`. -/
theorem LeadsTo.filterOps {between : List HostOp} {m k : Word} {keys : List DWord} {failed met : Bool}
    {s t : State} (hb : s.busy = false) (hexec : exec .cmdInit (s.initIssued m k) = .next t)
    (hstart : Always failed s) (hfirst : Always failed { s with cfgBitCount := m })
    (hstaged : Always failed { s with cfgBitCount := m, cfgProbeCount := k })
    (hissued : Always failed (s.initIssued m k))
    (hrest : LeadsTo Always AtEnd (between ++ (keys.flatMap insertOps ++ [commandOp .cmdSeal, .wait])) failed
      (decide (t.err = .none)) t) :
    LeadsTo Always AtEnd (filterOps between m k keys) failed met s := by
  rw [filterOps_eq]
  exact ⟨hstart, hb, hfirst, hb, .command hb hexec hstaged hissued hrest⟩

end

/-! ### Settled: the refused construction -/

/-- The filter, the seed source and the key registers are as in `s`. -/
def FilterKept (s t : State) : Prop :=
  t.phase = s.phase ∧ t.flt = s.flt ∧ t.bits = s.bits ∧ t.draws = s.draws ∧ keyOperand t = keyOperand s

/-- Settles O60: nothing before the wait after `INIT` touches the filter, `INIT` is refused, and the
`require` finds `E_CFG`. -/
theorem constructGivesUpWhenInitIsRefused : Obligations.ConstructGivesUpWhenInitIsRefused := by
  intro s m k keys turns hi hb hillegal hturns
  have hrefused : stagedConfigLegal (s.initIssued m k) = false :=
    Bool.eq_false_iff.mpr fun hl => hillegal (stagedConfigLegal_iff.mp hl)
  have hkept : FilterKept s s := ⟨rfl, rfl, rfl, rfl, rfl⟩
  have hlead : LeadsTo (fun _ => FilterKept s) (fun failed t => failed = true ∧ t.err = .cfg)
      (buildOps m k keys) false false s :=
    .filterOps hb (execInit_of_illegal hrefused) hkept hkept hkept hkept
      ⟨hkept, rfl, hkept, rfl, rfl⟩
  obtain ⟨r, t, p, hrun, hm, ⟨hphase, hflt, hbits, hdraws, hkey⟩, hend, halt⟩ :=
    hlead.runTurns_start hturns
  refine ⟨r, hrun, ?_⟩
  rw [hm]
  exact ⟨hphase, hflt, hbits, hdraws, hkey, fun h => (hend h).2, halt⟩

/-! ### Settled: the construction -/

theorem Inv.issue {s : State} (h : Inv s) (c : Word) : Inv (Machine.issue c s) :=
  h.of_filter_eq rfl rfl rfl Iff.rfl (fun _ => rfl) h.hit_ready

/-- The `SET` that the host issues for a key. -/
theorem Inv.execSet_issued {s : State} (h : Inv s) (hp : s.phase = .build) (key : DWord) :
    ∃ t, exec .cmdSet (Machine.issue (encode .cmdSet) (s.withKey key)) = .next t ∧ Inserted s [key] t := by
  obtain ⟨t, hexec, ht⟩ := ((h.withKey key).issue (encode .cmdSet)).execSet_inserts hp
  have hkey : keyOperand (Machine.issue (encode .cmdSet) (s.withKey key)) = key := keyOperand_withKey s key
  rw [hkey] at ht
  exact ⟨t, hexec, ht.of_same_filter rfl rfl rfl rfl rfl⟩

/-- A host that has not given up. -/
def NotGivenUp (failed : Bool) (_ : State) : Prop := failed = false

/-- An `insert` of each key: the host comes to where the keys are inserted. -/
theorem LeadsTo.insertOps {AtEnd : Bool → State → Prop} {rest : List HostOp} {keys : List DWord} {met : Bool}
    {s : State} (hb : s.busy = false) (hi : Inv s) (hp : s.phase = .build)
    (hrest : ∀ t met, t.busy = false → Inserted s keys t → LeadsTo NotGivenUp AtEnd rest false met t) :
    LeadsTo NotGivenUp AtEnd (keys.flatMap insertOps ++ rest) false met s := by
  induction keys generalizing s met with
  | nil => exact hrest s met hb (.nil hi hp)
  | cons key keys ih =>
    obtain ⟨t, hexec, ht⟩ := hi.execSet_issued hp key
    have hidle : t.busy = false := engineTurn_idle ((engineTurn_issue .cmdSet _).trans hexec)
    have hkeys : LeadsTo NotGivenUp AtEnd (keys.flatMap Machine.insertOps ++ rest) false
        (decide (t.err = .none)) t :=
      ih hidle ht.inv ht.phase fun u met hu hins => hrest u met hu (ht.cons hins)
    exact ⟨rfl, hb, rfl, hb, .command (s := s.withKey key) hb hexec rfl rfl hkeys⟩

/-- `s` after an accepted `INIT` (41_lifecycle.md R110). -/
def State.initialised (s : State) : State :=
  publish .none false { s with flt := newRecord s, bits := zeroWords (stagedWordCount s) s.bits,
                               draws := s.draws + 1, phase := .build }

/-- `s` after an accepted `SEAL` that the host has issued (41_lifecycle.md R115). -/
def State.sealedByHost (s : State) : State :=
  publish .none false { issue (encode .cmdSeal) s with phase := .ready }

theorem execSeal_issued {s : State} (hp : s.phase = .build) :
    exec .cmdSeal (Machine.issue (encode .cmdSeal) s) = .next s.sealedByHost :=
  (execSeal_eq _).trans (if_pos hp)

/-- What `construct` makes of `s`, once it has run to its end (40_config_sizing.md R100). -/
structure FilterBuilt (s : State) (keys : List DWord) (z : Sizing) (t : State) : Prop where
  phase : t.phase = .ready
  err : t.err = .none
  record : t.flt.m.toNat = z.m ∧ t.flt.k.toNat = z.k ∧ t.flt.wc.toNat = z.wc
  draws : t.draws = s.draws + 1
  busyViol : t.busyViol = s.busyViol
  contains : ∀ key ∈ keys, Contains t key
  bits : ∀ i < t.flt.wc.toNat * s.params.wordWidth.toNat,
    (bitAt s.params.wordWidth.toNat t.bits i = some true ↔
      ∃ key ∈ keys, ∃ idx ∈ probes key t.flt, idx.toNat = i)

/-- `INIT` leaves every bit in use 0, so the bits that are 1 after the keys are those their probes name. -/
theorem Inserted.bitAt_iff_of_initialised {s t : State} {keys : List DWord} {i : Nat}
    (h : Inserted s.initialised keys t) (hi : i < stagedWordCount s * s.params.wordWidth.toNat) :
    bitAt s.params.wordWidth.toNat t.bits i = some true ↔
      ∃ key ∈ keys, ∃ idx ∈ probes key t.flt, idx.toNat = i := by
  have hzero : bitAt s.initialised.params.wordWidth.toNat s.initialised.bits i = some false :=
    bitAt_zeroWords s.bits hi
  have hbits := h.bitAt_iff i
  rw [hzero, ← h.flt] at hbits
  exact hbits.trans (or_iff_right (by simp))

/-- An accepted `INIT`, the keys in any order, and a `SEAL` build the filter. -/
theorem FilterBuilt.of_inserted {s t : State} {m k : Word} {z : Sizing} {keys order : List DWord}
    (hstages : StagesSizing (s.initIssued m k) z)
    (hins : Inserted (s.initIssued m k).initialised order t) (hperm : order.Perm keys) :
    FilterBuilt s keys z t.sealedByHost := by
  have hflt : t.sealedByHost.flt = newRecord (s.initIssued m k) := hins.flt
  refine ⟨rfl, rfl, hflt ▸ hstages.newRecord_toNat, hins.draws, hins.busyViol,
    fun key hkey => hins.contains (hperm.mem_iff.mpr hkey), fun i hi => ?_⟩
  rw [hflt, toNat_newRecord_wc hstages.legal] at hi
  have hbits := hins.bitAt_iff_of_initialised hi
  simp only [hperm.mem_iff] at hbits
  exact hbits

/-- The pseudo-statement `construct` and the procedure of R100 differ in the `require` after `INIT` and in
the order of the keys. -/
theorem exists_filterOps {s : State} {keys : List DWord} {b : ℝ} {ops : List HostOp}
    (hfeasible : ∃ z, Size s.params.wordWidth.toNat keys.length b z ∧ z.feasible s.params = true)
    (hops : Expands s.params (.construct keys b) ops ∨ Builds s.params keys b ops) :
    ∃ z between order, Size s.params.wordWidth.toNat keys.length b z ∧ z.feasible s.params = true ∧
      order.Perm keys ∧ (between = [] ∨ between = [.require]) ∧
      ops = filterOps between (BitVec.ofNat 32 z.m) (BitVec.ofNat 32 z.k) order := by
  rcases hops with ⟨z, hsize, -, rfl⟩ | ⟨z, order, hsize, hf, hperm, rfl⟩
  · obtain ⟨z', hsize', hf⟩ := hfeasible
    obtain rfl := hsize'.unique hsize
    exact ⟨_, [], keys, hsize, hf, .refl _, .inl rfl, rfl⟩
  · exact ⟨z, [.require], order, hsize, hf, hperm, .inr rfl, rfl⟩

/-- A `require` after an accepted `INIT` is met. -/
theorem LeadsTo.between {AtEnd : Bool → State → Prop} {between rest : List HostOp} {s : State}
    (hbetween : between = [] ∨ between = [.require]) (hb : s.busy = false)
    (hrest : LeadsTo NotGivenUp AtEnd rest false true s) :
    LeadsTo NotGivenUp AtEnd (between ++ rest) false true s := by
  rcases hbetween with rfl | rfl
  · exact hrest
  · exact ⟨rfl, hb, hrest⟩

/-- The whole construction with a feasible sizing, from an idle state. -/
theorem leadsTo_filterBuilt {s : State} {z : Sizing} {count : Nat} {b : ℝ} {between : List HostOp}
    {keys order : List DWord} (hi : Inv s) (hb : s.busy = false)
    (hsize : Size s.params.wordWidth.toNat count b z) (hf : z.feasible s.params = true)
    (hperm : order.Perm keys) (hbetween : between = [] ∨ between = [.require]) :
    LeadsTo NotGivenUp (fun _ => FilterBuilt s keys z)
      (filterOps between (BitVec.ofNat 32 z.m) (BitVec.ofNat 32 z.k) order) false false s := by
  have hstages : StagesSizing (s.initIssued (BitVec.ofNat 32 z.m) (BitVec.ofNat 32 z.k)) z :=
    Size.stages hsize hf rfl rfl
  have hissued : Inv (s.initIssued (BitVec.ofNat 32 z.m) (BitVec.ofNat 32 z.k)) :=
    hi.of_filter_eq rfl rfl rfl Iff.rfl (fun _ => rfl) hi.hit_ready
  refine .filterOps hb (execInit_of_legal hstages.legal) rfl rfl rfl rfl (.between hbetween rfl ?_)
  refine .insertOps rfl (hissued.of_acceptedInit hstages.legal) rfl fun t met hidle hins => ?_
  exact .command hidle (execSeal_issued hins.phase) rfl rfl ⟨rfl, rfl, .of_inserted hstages hins hperm⟩

/-- Settles O59: the host's waits make the run a sequence of commands, and the filter is built by these. -/
theorem constructBuildsTheFilter : Obligations.ConstructBuildsTheFilter := by
  intro s keys b ops turns hi hb hfeasible hops hturns
  obtain ⟨z, between, order, hsize, hf, hperm, hbetween, rfl⟩ := exists_filterOps hfeasible hops
  obtain ⟨r, t, p, hrun, hm, hongoing, hend, halt⟩ :=
    (leadsTo_filterBuilt hi hb hsize hf hperm hbetween).runTurns_start hturns
  refine ⟨r, hrun, hongoing, fun hdone => ?_, halt⟩
  obtain ⟨hidle, hphase, herr, ⟨hbitCount, hprobeCount, hwordCount⟩, hdraws, hviol, hheld, hbits⟩ :=
    hend hdone
  rw [hm]
  exact ⟨z, hsize, hidle, hphase, herr, hbitCount, hprobeCount, hwordCount, hdraws, hviol, hheld,
    hbits⟩

end Sys2Proof.Machine

/-! SUPPORT and PROOFS. The life of a filter: what `INIT` and `SEAL` do, the phase table, and the moves of
`PHASE`. -/

namespace Sys2Proof.Machine

/-! ### `INIT`, `SEAL` and the phase that an accepted command leaves -/

/-- What an accepted `INIT` leaves in the array, by the word count of the new record (41_lifecycle.md R110,
R113). -/
theorem memRead_initialised {s : State} (hl : stagedConfigLegal s = true) (j : Nat) :
    memRead s.initialised.bits j =
      if j < s.initialised.flt.wc.toNat then some 0 else memRead s.bits j := by
  have hwc : s.initialised.flt.wc.toNat = stagedWordCount s := toNat_newRecord_wc hl
  rw [hwc]
  exact memRead_zeroWords (stagedWordCount s) s.bits j

theorem execSeal_of_build {s : State} (hp : s.phase = .build) :
    exec .cmdSeal s = .next (publish .none false { s with phase := .ready }) :=
  (execSeal_eq s).trans (if_pos hp)

theorem execSeal_of_wrongPhase {s : State} (hp : s.phase ≠ .build) :
    exec .cmdSeal s = .next (publish .phase false s) :=
  (execSeal_eq s).trans (if_neg hp)

/-- The phase in which an accepted command leaves the filter (41_lifecycle.md R116). -/
def acceptedPhase : Instr → Phase
  | .cmdInit => .build
  | .cmdSet => .build
  | .cmdSeal => .ready
  | .cmdTest => .ready

theorem exec_phase_of_accepted {i : Instr} {s t : State} (h : exec i s = .next t) (herr : t.err = .none) :
    t.phase = acceptedPhase i := by
  rcases exec_cases h with ⟨rfl, -, rfl⟩ | ⟨-, -, rfl⟩ | ⟨rfl, hp, mem, -, rfl⟩ | ⟨rfl, -, rfl⟩ |
    ⟨rfl, hp, answer, -, rfl⟩ | ⟨-, rfl⟩
  · rfl
  · cases herr
  · exact hp
  · rfl
  · exact hp
  · cases herr

/-- A command that passes its checks is accepted. -/
theorem Inv.exec_accepts {s : State} (h : Inv s) {i : Instr} (hc : checkedCode i s = .none) :
    ∃ t, exec i s = .next t ∧ t.err = .none ∧ t.phase = acceptedPhase i := by
  obtain ⟨t, ht⟩ := h.exec_answers i
  have herr : t.err = .none := (exec_err ht).trans hc
  exact ⟨t, ht, herr, exec_phase_of_accepted ht herr⟩

/-! ### Settled: the life of a filter -/

/-- Settles O31: the check of 41_lifecycle.md R111 is `stagedConfigLegal`; a legal configuration's word count
fits `FLT.wc`, so the words zeroed are the words in use. -/
theorem initCreatesTheFilterOrRefuses : Obligations.InitCreatesTheFilterOrRefuses := by
  intro s
  rw [← stagedConfigLegal_iff]
  refine ⟨fun hl => ?_, fun hl => execInit_of_illegal (Bool.eq_false_of_not_eq_true hl)⟩
  refine ⟨s.initialised, execInit_of_legal hl, rfl, rfl, rfl, toNat_newRecord_wc hl, rfl,
    fun j hj => ?_, fun j hj => ?_⟩
  · rw [memRead_initialised hl, if_pos hj]
  · rw [memRead_initialised hl, if_neg (Nat.not_lt.mpr hj)]

/-- Settles O32, by the phase check of `SEAL`. -/
theorem sealEndsConstruction : Obligations.SealEndsConstruction :=
  fun _ => ⟨execSeal_of_build, execSeal_of_wrongPhase⟩

/-- Settles O35: a command that passes its checks answers under the invariant and is accepted; one that does
not completes with its code alone. -/
theorem phaseTableIsComplete : Obligations.PhaseTableIsComplete := by
  intro s hi
  refine ⟨?_, fun hp => hi.exec_accepts (if_pos hp), fun hp => hi.exec_accepts (if_pos hp),
    fun hp => hi.exec_accepts (if_pos hp),
    fun hp => ⟨execSet_of_wrongPhase hp, execSeal_of_wrongPhase hp⟩, execTest_of_wrongPhase,
    fun rest he hb hno => ?_⟩
  · cases hl : stagedConfigLegal s with
    | true => exact ⟨_, execInit_of_legal hl, .inl ⟨rfl, rfl⟩⟩
    | false => exact ⟨_, execInit_of_illegal hl, .inr rfl⟩
  · cases hd : decodeWord s.cmdLatch with
    | ok i => exact absurd hd (hno i)
    | error e => exact (step_of_busy he hb).trans (complete_of_illegal hd)

/-- Settles O44, over what a step can do to the filter: reset, an accepted `INIT`, an accepted `SET`, and
what leaves record and array, `SEAL` among it. -/
theorem filterLifecycle : Obligations.FilterLifecycle := by
  intro s t hs
  rcases step_filter_cases hs with ⟨hreset, -, -, -, hempty, -⟩ |
    ⟨hreset, -, -, ⟨hinit, -, -, -, hbuild⟩ | ⟨-, -, hp, hbuild, hflt, -⟩ |
      ⟨-, hflt, -, hbits, hsame | ⟨hp, hready⟩⟩⟩
  · simp [hreset, hempty]
  · cases hp : s.phase <;> simp [hinit, hbuild]
  · simp [hp, hbuild, hflt]
  · exact ⟨fun _ _ => ⟨hflt, hbits⟩, fun _ _ => hflt, fun _ hmoves => absurd hsame hmoves,
      fun hempty => .inl (hsame ▸ hempty)⟩
  · simp [hflt, hbits, hp, hready]

end Sys2Proof.Machine

/-! SUPPORT and PROOFS. The statements about the probe derivation: the values that reduce to one index are an
interval between two ceilings, and the loop, like the lanes, is the closed form mapped over `0 .. k - 1`. -/

namespace Sys2Proof.Machine

/-! ### Sums under `ceilDiv` -/

theorem ceilDiv_le_iff {x y c : Nat} (hy : 1 ≤ y) : ceilDiv x y ≤ c ↔ x ≤ y * c := by
  rw [ceilDiv, ← Nat.ceilDiv_eq_add_pred_div]
  exact ceilDiv_le_iff_le_mul hy

theorem ceilDiv_add_div_le (x z : Nat) {y : Nat} (hy : 1 ≤ y) :
    ceilDiv x y + z / y ≤ ceilDiv (x + z) y := by
  have hsum : x + z + y - 1 = x + y - 1 + z := by omega
  rw [ceilDiv, ceilDiv, hsum]
  exact Nat.div_add_div_le_add_div

theorem ceilDiv_add_le (x z : Nat) {y : Nat} (hy : 1 ≤ y) :
    ceilDiv (x + z) y ≤ ceilDiv x y + ceilDiv z y := by
  rw [ceilDiv_le_iff hy, Nat.mul_comm, Nat.add_mul]
  exact Nat.add_le_add (le_ceilDiv_mul x hy) (le_ceilDiv_mul z hy)

theorem ceilDiv_le_div_succ (x : Nat) {y : Nat} (hy : 1 ≤ y) : ceilDiv x y ≤ x / y + 1 :=
  (ceilDiv_le_iff hy).mpr (Nat.lt_mul_div_succ x hy).le

/-! ### What reduces to one index -/

/-- `ceil(t * 2^32 / m)`, the preimage of `t` that 42_probe_derivation.md R137 (c) names. By `le_reduce_iff`
it is the least value that reduces to `t` or more. -/
def firstPreimage (m : Word) (t : Nat) : Nat := ceilDiv (t * 2 ^ 32) m.toNat

theorem le_reduce_iff {a m : Word} (hm : 1 ≤ m.toNat) {t : Nat} :
    t ≤ (reduce a m).toNat ↔ firstPreimage m t ≤ a.toNat := by
  rw [reduce_toNat, Nat.le_div_iff_mul_le (Nat.two_pow_pos 32), firstPreimage, ceilDiv_le_iff hm,
    Nat.mul_comm a.toNat]

/-- The values that reduce to `t` are an interval. -/
theorem reduce_eq_iff {a m : Word} (hm : 1 ≤ m.toNat) {t : Nat} :
    (reduce a m).toNat = t ↔ firstPreimage m t ≤ a.toNat ∧ a.toNat < firstPreimage m (t + 1) := by
  rw [← le_reduce_iff hm, ← not_le, ← le_reduce_iff hm]
  omega

/-- The interval of `t` has at least `floor(2^32 / m)` values. -/
theorem firstPreimage_add_div_le (m : Word) (hm : 1 ≤ m.toNat) (t : Nat) :
    firstPreimage m t + 2 ^ 32 / m.toNat ≤ firstPreimage m (t + 1) := by
  rw [firstPreimage, firstPreimage, Nat.succ_mul]
  exact ceilDiv_add_div_le _ _ hm

/-- The interval of `t` has at most `ceil(2^32 / m)` values. -/
theorem firstPreimage_succ_le (m : Word) (hm : 1 ≤ m.toNat) (t : Nat) :
    firstPreimage m (t + 1) ≤ firstPreimage m t + ceilDiv (2 ^ 32) m.toNat := by
  rw [firstPreimage, firstPreimage, Nat.succ_mul]
  exact ceilDiv_add_le _ _ hm

theorem firstPreimage_lt_succ (m : Word) (hm : 1 ≤ m.toNat) (t : Nat) :
    firstPreimage m t < firstPreimage m (t + 1) :=
  have hpos : 0 < 2 ^ 32 / m.toNat := Nat.div_pos m.isLt.le hm
  (Nat.lt_add_of_pos_right hpos).trans_le (firstPreimage_add_div_le m hm t)

/-- The intervals of the indices below `m` lie among the 32-bit values. -/
theorem firstPreimage_succ_le_two_pow {m : Word} (hm : 1 ≤ m.toNat) {t : Nat} (ht : t < m.toNat) :
    firstPreimage m (t + 1) ≤ 2 ^ 32 :=
  (ceilDiv_le_iff hm).mpr (Nat.mul_le_mul_right _ ht)

theorem toNat_ofNat_of_lt {x : Nat} (h : x < 2 ^ 32) : (BitVec.ofNat 32 x).toNat = x := by
  rw [BitVec.toNat_ofNat, Nat.mod_eq_of_lt h]

theorem reduce_firstPreimage {m : Word} (hm : 1 ≤ m.toNat) {t : Nat} (ht : t < m.toNat) :
    (reduce (BitVec.ofNat 32 (firstPreimage m t)) m).toNat = t := by
  have hlt := firstPreimage_lt_succ m hm t
  have hval := toNat_ofNat_of_lt (hlt.trans_le (firstPreimage_succ_le_two_pow hm ht))
  rw [reduce_eq_iff hm, hval]
  exact ⟨le_rfl, hlt⟩

theorem filter_reduce_eq_Ico {m : Word} (hm : 1 ≤ m.toNat) {t : Nat} (ht : t < m.toNat) :
    (Finset.range (2 ^ 32)).filter (fun x => (reduce (BitVec.ofNat 32 x) m).toNat = t) =
      Finset.Ico (firstPreimage m t) (firstPreimage m (t + 1)) := by
  have hle := firstPreimage_succ_le_two_pow hm ht
  ext x
  rw [Finset.mem_filter, Finset.mem_range, Finset.mem_Ico, reduce_eq_iff hm]
  constructor
  · rintro ⟨hx, hin⟩
    rwa [toNat_ofNat_of_lt hx] at hin
  · intro hin
    have hx : x < 2 ^ 32 := hin.2.trans_le hle
    exact ⟨hx, by rwa [toNat_ofNat_of_lt hx]⟩

/-- Near-uniform (42_probe_derivation.md R137 (d)): floor and ceiling differ by at most one. -/
theorem card_filter_reduce_eq {m : Word} (hm : 1 ≤ m.toNat) {t : Nat} (ht : t < m.toNat) :
    ((Finset.range (2 ^ 32)).filter (fun x => (reduce (BitVec.ofNat 32 x) m).toNat = t)).card =
        2 ^ 32 / m.toNat ∨
      ((Finset.range (2 ^ 32)).filter (fun x => (reduce (BitVec.ofNat 32 x) m).toNat = t)).card =
        ceilDiv (2 ^ 32) m.toNat := by
  rw [filter_reduce_eq_Ico hm ht, Nat.card_Ico]
  have hlow := firstPreimage_add_div_le m hm t
  have hhigh := firstPreimage_succ_le m hm t
  have hgap := ceilDiv_le_div_succ (2 ^ 32) hm
  generalize 2 ^ 32 / m.toNat = floor at hlow hgap ⊢
  omega

theorem reduce_mono {a a' : Word} (m : Word) (h : a.toNat ≤ a'.toNat) :
    (reduce a m).toNat ≤ (reduce a' m).toNat := by
  rw [reduce_toNat, reduce_toNat]
  exact Nat.div_le_div_right (Nat.mul_le_mul_right _ h)

theorem reduce_zero (m : Word) : (reduce 0 m).toNat = 0 := by
  simp [reduce_toNat]

theorem reduce_allOnes {m : Word} (hm : 1 ≤ m.toNat) : (reduce 0xFFFFFFFF m).toNat = m.toNat - 1 := by
  have hlt := m.isLt
  rw [reduce_toNat, show (0xFFFFFFFF : Word).toNat = 2 ^ 32 - 1 from rfl]
  omega

theorem reduce_one (a : Word) : reduce a 1 = 0 :=
  BitVec.eq_of_toNat_eq (Nat.lt_one_iff.mp (reduce_lt (m := 1) le_rfl))

/-- The top `j` bits of `a` (42_probe_derivation.md R137 (f)). -/
theorem reduce_of_two_pow {m : Word} {j : Nat} (hj : j ≤ 31) (hm : m.toNat = 2 ^ j) (a : Word) :
    (reduce a m).toNat = a.toNat / 2 ^ (32 - j) := by
  have hsplit : 2 ^ 32 = 2 ^ (32 - j) * 2 ^ j := by
    rw [← Nat.pow_add, Nat.sub_add_cancel (hj.trans (by decide))]
  rw [reduce_toNat, hm, hsplit, Nat.mul_div_mul_right _ _ (Nat.two_pow_pos j)]

/-! ### The closed form -/

/-- The loop reaches probe `i` with the running value `a + i * b`. -/
theorem probesFrom_eq_map (b m : Word) (k : Nat) (a : Word) :
    probesFrom b m k a = (List.range k).map fun i => reduce (a + BitVec.ofNat 32 i * b) m := by
  induction k generalizing a with
  | zero => rfl
  | succ k ih =>
    have hstep : ∀ i, a + b + BitVec.ofNat 32 i * b = a + BitVec.ofNat 32 (i + 1) * b := fun i => by
      rw [BitVec.ofNat_add, BitVec.add_mul, BitVec.one_mul, BitVec.add_assoc, BitVec.add_comm b]
    simp [probesFrom, ih, List.range_succ_eq_map, Function.comp_def, hstep]

/-- The loop makes the probes that the lanes compute (42_probe_derivation.md R135). -/
theorem probesOfHash_eq_map (h : DWord) (m : Word) (k : Nat) :
    probesOfHash h m k = (List.range k).map (laneProbe h m) :=
  probesFrom_eq_map _ _ _ _

theorem laneProbe_toNat (h : DWord) (m : Word) (i : Nat) :
    (laneProbe h m i).toNat =
      ((highHalf h).toNat + i * (lowHalf h).toNat) % 2 ^ 32 * m.toNat / 2 ^ 32 := by
  have hmod : ((highHalf h).toNat + i % 2 ^ 32 * (lowHalf h).toNat) % 2 ^ 32 =
      ((highHalf h).toNat + i * (lowHalf h).toNat) % 2 ^ 32 :=
    ((Nat.mod_modEq i _).mul_right _).add_left _
  rw [laneProbe, reduce_toNat, BitVec.toNat_add, BitVec.toNat_mul, BitVec.toNat_ofNat, Nat.add_mod_mod, hmod]

/-! ### The lanes -/

/-- The blocks of `P` indices that the lane-steps serve are, one after another, all indices. -/
theorem flatMap_block_eq_range (P c : Nat) :
    (List.range c).flatMap (fun st => (List.range P).map (fun lane => st * P + lane)) = List.range (c * P) := by
  induction c with
  | zero => simp
  | succ c ih =>
    rw [List.range_succ, List.flatMap_append, ih, List.flatMap_singleton, Nat.succ_mul, List.range_add]

theorem filter_lt_range {k n : Nat} (h : k ≤ n) :
    (List.range n).filter (fun i => decide (i < k)) = List.range k := by
  obtain ⟨d, rfl⟩ := Nat.exists_eq_add_of_le h
  have hkept : (List.range k).filter (fun i => decide (i < k)) = List.range k :=
    List.filter_eq_self.mpr (by simp)
  have hdropped : ((List.range d).map (k + ·)).filter (fun i => decide (i < k)) = [] :=
    List.filter_eq_nil_iff.mpr (by simp)
  rw [List.range_add, List.filter_append, hkept, hdropped, List.append_nil]

/-- The lane-steps leave out no index below `k` and serve none twice. -/
theorem laneProbes_eq_map {P : Nat} (hP : 1 ≤ P) (h : DWord) (m : Word) (k : Nat) :
    laneProbes P h m k = (List.range k).map (laneProbe h m) := by
  rw [← filter_lt_range (le_ceilDiv_mul k hP), ← flatMap_block_eq_range, List.filter_flatMap,
    List.map_flatMap]
  rfl

/-! ### Settled: the probe derivation -/

/-- Settles O23, by the value and the range of `reduce`. -/
theorem reduceIsMultiplyHigh : Obligations.ReduceIsMultiplyHigh := by
  intro a m
  refine ⟨reduce_toNat a m, ?_, fun hm => Nat.le_sub_one_of_lt (reduce_lt hm), by decide, by decide,
    by decide, by decide, by decide, by decide, reduce_one a⟩
  calc a.toNat * m.toNat < 2 ^ 32 * 2 ^ 32 := Nat.mul_lt_mul'' a.isLt m.isLt
    _ = 2 ^ 64 := by decide

/-- Settles O24: onto and near-uniform because what reduces to `t` is the interval from `firstPreimage m t` up
to `firstPreimage m (t + 1)`. -/
theorem lawsOfReduce : Obligations.LawsOfReduce := fun m hm =>
  ⟨fun _ => reduce_lt hm, fun _ _ => reduce_mono m, fun _ => reduce_firstPreimage hm,
    fun _ => card_filter_reduce_eq hm, reduce_zero m, reduce_allOnes hm, fun _ => reduce_of_two_pow⟩

/-- Settles O25: entry `i` of the loop is the closed form at `i`. -/
theorem probesHaveTheClosedForm : Obligations.ProbesHaveTheClosedForm := by
  intro h m k
  refine ⟨length_probesFrom _ _ _ _, fun i hi => ⟨laneProbe h m i, ?_, laneProbe_toNat h m i⟩⟩
  rw [probesOfHash_eq_map, List.getElem?_map, List.getElem?_range hi, Option.map_some]

/-- Settles O27: loop and lanes are the closed form over the same indices in the same order. -/
theorem lanesMakeTheSameProbes : Obligations.LanesMakeTheSameProbes := fun _ h m k hP =>
  (laneProbes_eq_map hP h m k).trans (probesOfHash_eq_map h m k).symm

end Sys2Proof.Machine

/-! SUPPORT and PROOFS. `SET`: the words and bits its loop leaves, what the same loop does a second time, and
the staging registers, which no command but `INIT` reads. -/

namespace Sys2Proof.Machine

/-! ### The bit-set loop -/

theorem memRead_setBit_of_ne {W : Nat} {mem mem' : Memory} {i j : Nat} (h : setBit W mem i = some mem')
    (hj : i / W ≠ j) : memRead mem' j = memRead mem j := by
  obtain ⟨v, -, rfl⟩ := memOr_eq_some.mp h
  rw [memRead_memWrite, if_neg hj.symm]

/-- The bit-set loop leaves every word that no index lies in (43_set.md R151). -/
theorem memRead_setBits_of_ne {W : Nat} {mem mem' : Memory} {idxs : List Word} {j : Nat}
    (h : setBits W mem idxs = some mem') (hj : ∀ idx ∈ idxs, idx.toNat / W ≠ j) :
    memRead mem' j = memRead mem j := by
  induction idxs generalizing mem with
  | nil =>
    simp only [setBits, Option.some.injEq] at h
    rw [h]
  | cons i rest ih =>
    obtain ⟨hi, hrest⟩ := List.forall_mem_cons.mp hj
    obtain ⟨m1, hset, hrun⟩ := setBits_cons.mp h
    exact (ih hrun hrest).trans (memRead_setBit_of_ne hset hi)

/-- The same loop again sets bits that are set (20_memory.md R57). -/
theorem setBits_again {W M : Nat} {mem out : Memory} {idxs : List Word} (hW : 1 ≤ W)
    (hm : Memory.wf W M mem = true) (h : setBits W mem idxs = some out) :
    setBits W out idxs = some out := by
  refine setBits_of_all_set M (wf_setBits hW hm h) hW fun idx hidx => ?_
  rw [bitAt_setBits h, if_pos (List.mem_map_of_mem hidx)]

/-- `SET` in `BUILD` runs the loop over the probes of `KEY` to its end (43_set.md R150). -/
theorem Inv.execSet_runs {s : State} (h : Inv s) (hp : s.phase = .build) :
    ∃ mem, setBits s.params.wordWidth.toNat s.bits (probes (keyOperand s) s.flt) = some mem ∧
      exec .cmdSet s = .next (publish .none false { s with bits := mem }) := by
  obtain ⟨t, hexec⟩ := h.exec_answers .cmdSet
  rcases execSet_next hexec with ⟨-, mem, hmem, rfl⟩ | ⟨hne, -⟩
  · exact ⟨mem, hmem, hexec⟩
  · exact absurd hp hne

/-! ### Settled: `SET` -/

/-- Settles O33: `SET` runs the bit-set loop, which is known bit by bit and word by word. -/
theorem setMarksExactlyTheProbedBits : Obligations.SetMarksExactlyTheProbedBits := by
  intro s hi hp
  obtain ⟨mem, hmem, hexec⟩ := hi.execSet_runs hp
  have hbit := bitAt_setBits hmem
  simp only [List.mem_map] at hbit
  exact ⟨_, hexec, rfl, fun i _ => ⟨fun hin => (hbit i).trans (if_pos hin),
    fun hout => (hbit i).trans (if_neg hout)⟩, fun j hj => memRead_setBits_of_ne hmem hj⟩

/-- Settles O38, command by command: the phase check, the key, the record and the array are the same with
any staging values. -/
theorem stagingDoesNotTouchTheFilter : Obligations.StagingDoesNotTouchTheFilter := by
  rintro i s t m k (rfl | rfl | rfl) hx
  · rcases execSet_next hx with ⟨hp, mem, hmem, rfl⟩ | ⟨hp, rfl⟩
    · exact execSet_of_setBits hp hmem
    · exact execSet_of_wrongPhase hp
  · by_cases hp : s.phase = .build
    · cases (execSeal_of_build hp).symm.trans hx
      exact execSeal_of_build hp
    · cases (execSeal_of_wrongPhase hp).symm.trans hx
      exact execSeal_of_wrongPhase hp
  · rcases execTest_next hx with ⟨hp, answer, hanswer, rfl⟩ | ⟨hp, rfl⟩
    · exact execTest_of_testBits hp hanswer
    · exact execTest_of_wrongPhase hp

/-- Settles O39: the second `SET` runs the loop over the same probes, and completes as the first did. -/
theorem settingAKeyTwiceChangesNothing : Obligations.SettingAKeyTwiceChangesNothing := by
  intro s hi hp
  obtain ⟨mem, hmem, hexec⟩ := hi.execSet_runs hp
  have hagain := setBits_again hi.one_le_wordWidth hi.memory_wf hmem
  exact ⟨_, _, hexec, execSet_of_setBits hp hagain, rfl⟩

end Sys2Proof.Machine

/-! SUPPORT and PROOFS. `TEST`: what it answers, and what stays of a filter over a run that draws no seed, so
that a later `TEST` answers alike. -/

namespace Sys2Proof.Machine

/-! ### The answer of `TEST` -/

/-- `TEST` in `READY` answers whether the filter holds the key in `KEY` (44_test.md R161). -/
theorem Inv.execTest_answers {s : State} (h : Inv s) (hp : s.phase = .ready) :
    ∃ answer, exec .cmdTest s = .next (publish .none answer s) ∧
      (answer = true ↔ Contains s (keyOperand s)) := by
  obtain ⟨t, hexec⟩ := h.exec_answers .cmdTest
  rcases execTest_next hexec with ⟨-, answer, hanswer, rfl⟩ | ⟨hne, -⟩
  · refine ⟨answer, hexec, ?_⟩
    rw [Contains, ← testBits_true_iff, hanswer, Option.some.injEq]
  · exact absurd hp hne

/-- A filter with no bit set holds no key: `FLT.k` is at least 1, so some bit is probed (44_test.md R163). -/
theorem NothingSet.not_contains {s : State} (h : NothingSet s) (hi : Inv s) (hp : s.phase ≠ .empty)
    (key : DWord) : ¬ Contains s key := by
  intro hc
  obtain ⟨hm, hk, -⟩ := hi.record_legal hp
  obtain ⟨idx, hidx⟩ := List.exists_mem_of_length_pos (hk.trans_eq (length_probes key s.flt).symm)
  have hzero := h idx.toNat (mem_probes_lt hm hidx)
  rw [hc idx hidx] at hzero
  cases hzero

theorem acceptsSet_of_ready {s : State} (hp : s.phase = .ready) : acceptsSet s = false := by
  simp [acceptsSet, hp]

/-! ### Runs that draw no seed -/

/-- Induction along a run, with the state each step starts from. -/
theorem run_induction {P : State → Prop} {n : Nat} {s t : State} (hrun : Host.Core.run core n s = .next t)
    (hstep : ∀ k < n, ∀ u v, Host.Core.run core k s = .next u → step u = .next v → P u → P v)
    (h : P s) : P t := by
  induction n generalizing s with
  | zero => cases hrun; exact h
  | succ n ih =>
    obtain ⟨s₁, hfirst, hrest⟩ := run_split hrun
    exact ih hrest (fun k hk u v hu => hstep (k + 1) (Nat.succ_lt_succ hk) u v ((run_succ k hfirst).trans hu))
      (hstep 0 n.succ_pos s s₁ rfl hfirst h)

theorem Inv.of_run {n : Nat} {s t : State} (h : Inv s) (hrun : Host.Core.run core n s = .next t) : Inv t :=
  run_induction hrun (fun _ _ _ _ _ hs hu => hu.of_step hs) h

theorem step_draws_le {s t : State} (hs : step s = .next t) : s.draws ≤ t.draws := by
  rcases step_filter_cases hs with ⟨-, -, -, -, -, hdraws, -⟩ |
    ⟨-, -, -, ⟨-, -, -, hdraws, -⟩ | ⟨-, -, -, -, -, hdraws, -⟩ | ⟨-, -, hdraws, -⟩⟩ <;> omega

theorem run_draws_le {n : Nat} {s t : State} (hrun : Host.Core.run core n s = .next t) :
    s.draws ≤ t.draws :=
  run_induction (P := fun u => s.draws ≤ u.draws) hrun (fun _ _ _ _ _ hs hu => hu.trans (step_draws_le hs))
    le_rfl

/-- `t` has the filter of `s`, perhaps with more bits set: what a step between two accepted `INIT`s does to a
filter that is there after it (41_lifecycle.md R117, 10_state.md R35). -/
structure FilterStays (s t : State) : Prop where
  phase : s.phase ≠ .empty
  ready : s.phase = .ready → t.phase = .ready
  params : t.params = s.params
  flt : t.flt = s.flt
  bits_grow : ∀ i, bitAt s.params.wordWidth.toNat s.bits i = some true →
    bitAt s.params.wordWidth.toNat t.bits i = some true
  bits_eq : acceptsSet s = false → t.bits = s.bits

namespace FilterStays

variable {s t : State} {key : DWord}

/-- Reset ends the filter and an accepted `INIT` draws a seed; every other step is one of these. -/
theorem of_step (hs : step s = .next t) (hdraws : t.draws = s.draws) (hp : t.phase ≠ .empty) :
    FilterStays s t := by
  rcases step_filter_cases hs with ⟨-, -, -, -, hempty, -⟩ |
    ⟨-, hparams, -, ⟨-, -, -, hdraw, -⟩ | ⟨-, haccept, hbuild, -, hflt, -, key, hset⟩ |
      ⟨-, hflt, -, hbits, hphase⟩⟩
  · exact absurd hempty hp
  · omega
  · exact {
      phase := by simp [hbuild]
      ready := by simp [hbuild]
      params := hparams
      flt := hflt
      bits_grow := fun i hi => by rw [bitAt_setBits hset, hi, ite_self]
      bits_eq := by simp [haccept] }
  · exact {
      phase := by
        rcases hphase with hsame | ⟨hbuild, -⟩
        · rwa [← hsame]
        · simp [hbuild]
      ready := fun hr => hphase.elim (·.trans hr) (·.2)
      params := hparams
      flt := hflt
      bits_grow := fun i hi => hbits ▸ hi
      bits_eq := fun _ => hbits }

theorem contains (h : FilterStays s t) (hc : Contains s key) : Contains t key := by
  unfold Contains at hc ⊢
  rw [h.params, h.flt]
  exact fun idx hidx => h.bits_grow _ (hc idx hidx)

theorem contains_iff (h : FilterStays s t) (hset : acceptsSet s = false) :
    Contains t key ↔ Contains s key := by
  rw [Contains, Contains, h.params, h.flt, h.bits_eq hset]

theorem nothingSet (h : FilterStays s t) (hset : acceptsSet s = false) (hs : NothingSet s) :
    NothingSet t := by
  rwa [NothingSet, h.params, h.flt, h.bits_eq hset]

/-- A run without a draw that ends with a filter keeps what each of its steps keeps of it: the filter was
there all along. -/
theorem run_keeps {P : State → Prop} {n : Nat} (hrun : Host.Core.run core n s = .next t)
    (hdraws : t.draws = s.draws) (hp : t.phase ≠ .empty)
    (hstep : ∀ k < n, ∀ u v, Host.Core.run core k s = .next u → FilterStays u v → P u → P v)
    (h : P s) : P t := by
  refine run_induction (P := fun u => u.draws = s.draws → u.phase ≠ .empty → P u) hrun ?_ (fun _ _ => h)
    hdraws hp
  intro k hk u v hu hs ih hv hne
  have hdraw : u.draws = s.draws := le_antisymm ((step_draws_le hs).trans_eq hv) (run_draws_le hu)
  have hstays := of_step hs (hv.trans hdraw.symm) hne
  exact hstep k hk u v hu hstays (ih hdraw hstays.phase)

end FilterStays

/-! ### Settled: `TEST` -/

/-- Settles O34: the bit-test loop answers the AND, early exit or not, and its completion writes `STATUS`. -/
theorem testAnswersTheAndOfTheProbedBits : Obligations.TestAnswersTheAndOfTheProbedBits := by
  intro s hi hp
  obtain ⟨answer, hexec, hiff⟩ := hi.execTest_answers hp
  exact ⟨_, hexec, rfl, hiff⟩

/-- Settles O51: the `SET` leaves the key held, and a filter that stays only gains bits. -/
theorem noFalseNegatives : Obligations.NoFalseNegatives := by
  intro s s' t n hi hp hset hrun hdraws hready hkey
  obtain ⟨s₁, hset', hins⟩ := hi.execSet_inserts hp
  obtain rfl : s₁ = s' := Host.Outcome.next.inj (hset'.symm.trans hset)
  have hc : Contains t (keyOperand s) :=
    FilterStays.run_keeps (P := fun u => Contains u (keyOperand s)) hrun hdraws (by simp [hready])
      (fun _ _ _ _ _ hstays => hstays.contains) (hins.contains List.mem_cons_self)
  obtain ⟨answer, hexec, hiff⟩ := (hins.inv.of_run hrun).execTest_answers hready
  rw [hkey] at hiff
  exact ⟨_, hexec, rfl, hiff.mpr hc⟩

/-- Settles O52: with no `SET` accepted no bit is set, and some bit is probed. -/
theorem emptyFilterNeverMatches : Obligations.EmptyFilterNeverMatches := by
  intro s t n hi _ hzero hnoSet hrun hdraws hready
  have hne : t.phase ≠ .empty := by simp [hready]
  have hzero' : NothingSet t :=
    FilterStays.run_keeps hrun hdraws hne
      (fun k hk u _ hu hstays => hstays.nothingSet (hnoSet k hk u hu)) hzero
  have hi' := hi.of_run hrun
  obtain ⟨answer, hexec, hiff⟩ := hi'.execTest_answers hready
  exact ⟨_, hexec, rfl, Bool.eq_false_of_not_eq_true (mt hiff.mp (hzero'.not_contains hi' hne _))⟩

/-- Settles O53: in `READY` no `SET` is accepted, so the filter that stays holds the same keys. -/
theorem testAnswersRepeat : Obligations.TestAnswersRepeat := by
  intro s t n hi hp hrun hdraws hready hkey
  have hsame : t.phase = .ready ∧ (Contains t (keyOperand s) ↔ Contains s (keyOperand s)) :=
    FilterStays.run_keeps
      (P := fun u => u.phase = .ready ∧ (Contains u (keyOperand s) ↔ Contains s (keyOperand s)))
      hrun hdraws (by simp [hready])
      (fun _ _ _ _ _ hstays ⟨hu, hiff⟩ =>
        ⟨hstays.ready hu, (hstays.contains_iff (acceptsSet_of_ready hu)).trans hiff⟩)
      ⟨hp, Iff.rfl⟩
  obtain ⟨first, hfirst, hfirst_iff⟩ := hi.execTest_answers hp
  obtain ⟨second, hsecond, hsecond_iff⟩ := (hi.of_run hrun).execTest_answers hready
  rw [hkey, hsame.2] at hsecond_iff
  exact ⟨_, _, hfirst, hsecond, rfl, rfl, Bool.eq_iff_iff.mpr (hfirst_iff.trans hsecond_iff.symm)⟩

end Sys2Proof.Machine

/-! SUPPORT and PROOFS. The read-back registers: how the capacity relates to the bit count, and which steps
leave all five registers. -/

namespace Sys2Proof.Machine

/-! ### The slack of the last word -/

/-- The words have fewer than `W` slack bits (45_capacity.md R171). -/
theorem ceilDiv_mul_lt (m : Nat) {W : Nat} (hW : 1 ≤ W) : ceilDiv m W * W < m + W :=
  (Nat.div_mul_le_self (m + W - 1) W).trans_lt (by omega)

/-! ### What the five registers show -/

/-- The five registers that show the current filter (10_state.md R21 to R24). -/
def readBackRegs : List Reg :=
  [.fltBitCount, .fltProbeCount, .fltWordCount, .fltCapacityLo, .fltCapacityHi]

/-- They depend on the filter record and, for the capacity, on the word width. -/
theorem readReg_readBack_congr {s t : State} (hparams : t.params = s.params) (hflt : t.flt = s.flt) :
    ∀ r ∈ readBackRegs, readReg t r = readReg s r := by
  simp [readBackRegs, readReg, capacity, hparams, hflt]

theorem Inv.readReg_readBack_of_empty {s : State} (h : Inv s) (hp : s.phase = .empty) :
    ∀ r ∈ readBackRegs, readReg s r = 0 := by
  obtain ⟨hm, hk, hwc⟩ := h.empty_record hp
  simp [readBackRegs, readReg, capacity, hm, hk, hwc]

/-- Only reset and an accepted `INIT` write the filter record. -/
theorem step_flt {s t : State} (hs : step s = .next t) (hreset : takesReset s = false)
    (hinit : acceptsInit s = false) : t.flt = s.flt := by
  rcases step_filter_cases hs with ⟨h, -⟩ |
    ⟨-, -, -, ⟨h, -⟩ | ⟨-, -, -, -, hflt, -⟩ | ⟨-, hflt, -⟩⟩
  · simp [hreset] at h
  · simp [hinit] at h
  · exact hflt
  · exact hflt

/-! ### Settled: the read-back registers -/

/-- Settles O47: with a filter, from the legal record of the invariant, the capacity pair being the 64-bit
product; in `EMPTY` the record is 0; and a step that writes no record leaves what the five registers show. -/
theorem readBackRelations : Obligations.ReadBackRelations := by
  intro s hi
  refine ⟨fun hp => ?_, fun hp => ?_, fun t hs hreset hinit => ?_⟩
  · obtain ⟨-, hk, hkmax, hwc, -⟩ := hi.record_legal hp
    obtain ⟨-, -, -, -, -, -, -, -, -, -, -, hcap, -⟩ := windowMapReads s
    have hcap' : (portRead s 0x30 ++ portRead s 0x2C).toNat =
        ceilDiv s.flt.m.toNat s.params.wordWidth.toNat * s.params.wordWidth.toNat := by rw [hcap, hwc]
    exact ⟨hwc, hcap, (le_ceilDiv_mul _ hi.one_le_wordWidth).trans_eq hcap'.symm,
      hcap'.trans_lt (ceilDiv_mul_lt _ hi.one_le_wordWidth), hk, hkmax⟩
  · simpa [readBackRegs, portRead, regAt] using hi.readReg_readBack_of_empty hp
  · simpa [readBackRegs, portRead, regAt] using
      readReg_readBack_congr (step_params hs) (step_flt hs hreset hinit)

end Sys2Proof.Machine

/-! SUPPORT and PROOFS. Refusals, accesses that have no effect, and the two flags of `STATUS` that the host
clears: what raises and what drops `DONE` and `BUSY_VIOL`. -/

namespace Sys2Proof.Machine

/-! ### Illegal words and refused commands -/

/-- The decoder on the fields of the word (30_encoding.md R72, R73): a command is `ZERO` = 0 and `OPCODE`
from 1 to 4. -/
theorem exists_decodeWord_eq_ok_iff {c : Word} :
    (∃ i, decodeWord c = .ok i) ↔
      c.extractLsb' 8 24 = 0 ∧ 1 ≤ (c.extractLsb' 0 8).toNat ∧ (c.extractLsb' 0 8).toNat ≤ 4 := by
  simp only [decodeWord_eq_ok_iff]
  constructor
  · rintro ⟨i, rfl⟩
    cases i <;> decide
  · rintro ⟨hzero, hlow, hhigh⟩
    have hword : 0#24 ++ c.extractLsb' 0 8 = c :=
      (congrArg (· ++ c.extractLsb' 0 8) hzero.symm).trans (word_split c)
    have hopcode : c.extractLsb' 0 8 = 1 ∨ c.extractLsb' 0 8 = 2 ∨ c.extractLsb' 0 8 = 3 ∨
        c.extractLsb' 0 8 = 4 := by
      bv_omega
    rcases hopcode with h | h | h | h <;> rw [h] at hword
    · exact ⟨.cmdInit, hword.symm⟩
    · exact ⟨.cmdSet, hword.symm⟩
    · exact ⟨.cmdSeal, hword.symm⟩
    · exact ⟨.cmdTest, hword.symm⟩

/-- `E_ILLEGAL` is the decode check's code, and no check of a command reports it (60_exceptions.md R182). -/
theorem checkedCode_ne_illegal (i : Instr) (s : State) : checkedCode i s ≠ .illegal := by
  cases i <;> simp only [checkedCode] <;> split <;> simp

/-- A command refused by one of its checks publishes the code and does nothing else (60_exceptions.md R184). -/
theorem exec_of_refused {i : Instr} {s t : State} (h : exec i s = .next t) (herr : t.err ≠ .none) :
    t = publish t.err false s := by
  rcases exec_cases h with ⟨-, -, rfl⟩ | ⟨-, -, rfl⟩ | ⟨-, -, mem, -, rfl⟩ | ⟨-, -, rfl⟩ |
    ⟨-, -, answer, -, rfl⟩ | ⟨-, rfl⟩
  · exact absurd rfl herr
  · rfl
  · exact absurd rfl herr
  · exact absurd rfl herr
  · exact absurd rfl herr
  · rfl

/-- Settles O4: the stated ranges are those of the decoder, and no command's own checks report `E_ILLEGAL`. -/
theorem illegalWordsCompleteRefused : Obligations.IllegalWordsCompleteRefused := by
  intro s rest he hb
  rw [step_of_busy he hb]
  refine ⟨fun hbad => ?_, fun hgood t ht => ?_⟩
  · cases hd : decodeWord s.cmdLatch with
    | ok i =>
      obtain ⟨hzero, hlow, hhigh⟩ := exists_decodeWord_eq_ok_iff.mp ⟨i, hd⟩
      rcases hbad with h | h | h
      · exact absurd hzero h
      · exact absurd hlow (Nat.not_le.mpr h)
      · exact absurd hhigh (Nat.not_le.mpr h)
    | error e => exact complete_of_illegal hd
  · obtain ⟨i, hd⟩ := exists_decodeWord_eq_ok_iff.mpr hgood
    have hexec := (complete_of_decodeWord (s := { s with pending := rest }) hd).symm.trans ht
    rw [exec_err hexec]
    exact checkedCode_ne_illegal i _

/-- Settles O36: an illegal word and a failed check complete by `publish` alone. -/
theorem refusalsArePrecise : Obligations.RefusalsArePrecise := by
  intro s t hc herr
  rcases complete_cases hc with ⟨i, -, hx⟩ | ⟨e, -, rfl⟩
  · exact exec_of_refused hx herr
  · rfl

/-! ### Steps that always answer, and steps that change nothing -/

theorem Inv.engineTurn_answers {s : State} (h : Inv s) : ∃ t, engineTurn s = .next t := by
  cases hb : s.busy with
  | true => rw [engineTurn_of_busy hb]; exact h.complete_answers
  | false => exact ⟨s, engineTurn_of_idle hb⟩

theorem Inv.step_answers {s : State} (h : Inv s) : ∃ t, step s = .next t := by
  cases hp : s.pending with
  | nil =>
    rw [step_of_engineNext (.inl ⟨hp, rfl⟩)]
    exact (h.withPending []).engineTurn_answers
  | cons e rest =>
    cases e with
    | access a => exact ⟨_, step_access hp⟩
    | rst => exact ⟨_, step_rst hp⟩
    | engine =>
      rw [step_of_engineNext (.inr hp)]
      exact (h.withPending rest).engineTurn_answers

/-- Settles O43: an access and a reset always answer; a completion does because every probed word has a
value. -/
theorem nothingStopsTheMachine : Obligations.NothingStopsTheMachine :=
  fun _ hi => ⟨hi.step_answers, hi.exec_answers⟩

/-- Settles O7: the engine's turn with no command in flight. -/
theorem idleKeepsEverything : Obligations.IdleKeepsEverything :=
  fun _ _ he hb => (step_of_engineNext he).trans (engineTurn_of_idle hb)

theorem access_wellFormed_iff {a : Access} :
    a.wellFormed = true ↔ a.width = 32 ∧ a.offset % 4 = 0 ∧ a.offset < 0x100 := by
  simp [Access.wellFormed, and_assoc]

/-- Settles O17: the port refuses the access, and its refusal writes the answer and the model's counter. -/
theorem malformedAccessHasNoEffect : Obligations.MalformedAccessHasNoEffect := by
  intro s a rest hp hbad
  have hnot : ¬ a.wellFormed = true := by
    rw [access_wellFormed_iff]
    omega
  refine ⟨_, step_access hp, ?_⟩
  rw [portAccess, if_neg hnot]
  cases a.kind with
  | read => exact ⟨rfl, fun _ => ⟨_, rfl⟩, by simp⟩
  | write v => exact ⟨rfl, by simp, fun _ _ => rfl⟩

/-! ### What raises and what drops `DONE` and `BUSY_VIOL` -/

theorem takesReset_iff {s : State} : takesReset s = true ↔ ∃ rest, s.pending = .rst :: rest := by
  unfold takesReset
  split <;> simp_all

/-- A write that the port takes at a register's offset, as a step. -/
theorem TakesWrite.step_eq {s t : State} {r : Reg} {v : Word} (h : TakesWrite s (regOffset r) v)
    (hs : step s = .next t) :
    ∃ rest, t = { writeReg r v { s with pending := rest } with port := .written } := by
  obtain ⟨hb, rest, hp⟩ := h
  exact ⟨rest, Host.Outcome.next.inj (hs.symm.trans (step_writeReg hb hp))⟩

theorem done_of_completion {s t : State} (hs : step s = .next t) (hc : isCompletion s = true) :
    t.done = true := by
  obtain ⟨hb, rest, he⟩ := isCompletion_iff.mp hc
  obtain ⟨-, -, hdone, -⟩ := complete_frame ((step_of_busy he hb).symm.trans hs)
  exact hdone

theorem done_of_reset {s t : State} (hs : step s = .next t) (hr : takesReset s = true) :
    t.done = false := by
  obtain ⟨rest, hp⟩ := takesReset_iff.mp hr
  cases (step_rst hp).symm.trans hs
  rfl

theorem done_of_issue {s t : State} {c : Word} (hs : step s = .next t) (hw : TakesWrite s 0x0C c) :
    t.done = false := by
  obtain ⟨rest, rfl⟩ := hw.step_eq (r := .cmd) hs
  rfl

/-- `t` has the `DONE` of `s`, and has `BUSY_VIOL` if `s` has it. -/
def KeepsFlags (s t : State) : Prop := t.done = s.done ∧ (s.busyViol = true → t.busyViol = true)

/-- Of the writes that the port takes only those of `CMD` and `STATUS` drop a flag (10_state.md R15,
30_encoding.md R75). -/
theorem writeReg_flags (r : Reg) (v : Word) (s : State) :
    (r = .cmd ∧ writeReg r v s = issue v s) ∨ (r = .status ∧ writeReg r v s = writeStatus v s) ∨
      KeepsFlags s (writeReg r v s) := by
  cases r with
  | cmd => exact .inl ⟨rfl, rfl⟩
  | status => exact .inr (.inl ⟨rfl, rfl⟩)
  | _ => exact .inr (.inr ⟨rfl, id⟩)

/-- A bus access is a register write that the port takes, or drops no flag: a write while busy raises
`BUSY_VIOL` (10_state.md R41), and any other access changes neither. -/
theorem portAccess_flags (a : Access) (s : State) :
    (∃ r v, s.busy = false ∧ a = ⟨.write v, 32, regOffset r⟩ ∧
      portAccess a s = { writeReg r v s with port := .written }) ∨
    KeepsFlags s (portAccess a s) := by
  rcases portAccess_cases a s with ⟨-, -, e⟩ | ⟨v, hwf, hkind, e⟩ | ⟨-, e⟩
  · rw [e]; exact .inr ⟨rfl, id⟩
  · rw [e]
    rcases portWrite_cases a.offset v s with ⟨-, e'⟩ | ⟨-, -, e'⟩ | ⟨r, hb, hr, e'⟩
    · rw [e']; exact .inr ⟨rfl, fun _ => rfl⟩
    · rw [e']; exact .inr ⟨rfl, id⟩
    · obtain ⟨hwidth, -⟩ := access_wellFormed_iff.mp hwf
      obtain ⟨kind, width, offset⟩ := a
      obtain rfl : kind = .write v := hkind
      obtain rfl : width = 32 := hwidth
      obtain rfl : offset = regOffset r := regAt_eq_some_iff.mp hr
      exact .inl ⟨r, v, hb, rfl, by rw [e']⟩
  · rw [e]
    cases a.kind <;> exact .inr ⟨rfl, id⟩

/-- Everything a step can do to `DONE` and `BUSY_VIOL`: a completion, a reset, an issue and a write of
`STATUS` that the port takes; any other step drops neither and raises no `DONE`. -/
theorem step_flags {s t : State} (hs : step s = .next t) :
    (isCompletion s = true ∧ t.done = true ∧ t.busyViol = s.busyViol) ∨
    takesReset s = true ∨
    ((∃ c, TakesWrite s 0x0C c) ∧ t.busyViol = s.busyViol) ∨
    (∃ v, TakesWrite s 0x08 v ∧ t.done = (s.done && !v.getLsbD 1) ∧
      t.busyViol = (s.busyViol && !v.getLsbD 12)) ∨
    KeepsFlags s t := by
  rcases step_cases hs with ⟨a, rest, hp, rfl⟩ | ⟨rest, hp, -⟩ | ⟨rest, -, -, rfl⟩ | ⟨rest, he, hb, hc⟩
  · rcases portAccess_flags a { s with pending := rest } with ⟨r, v, hb, rfl, e⟩ | hkeeps
    · rw [e]
      rcases writeReg_flags r v { s with pending := rest } with ⟨rfl, e'⟩ | ⟨rfl, e'⟩ | hkeeps
      · rw [e']; exact .inr (.inr (.inl ⟨⟨v, hb, rest, hp⟩, rfl⟩))
      · rw [e']; exact .inr (.inr (.inr (.inl ⟨v, ⟨hb, rest, hp⟩, rfl, rfl⟩)))
      · exact .inr (.inr (.inr (.inr hkeeps)))
    · exact .inr (.inr (.inr (.inr hkeeps)))
  · exact .inr (.inl (takesReset_iff.mpr ⟨rest, hp⟩))
  · exact .inr (.inr (.inr (.inr ⟨rfl, id⟩)))
  · obtain ⟨-, hviol, hdone, -⟩ := complete_frame hc
    exact .inl ⟨isCompletion_iff.mpr ⟨hb, rest, he⟩, hdone, hviol⟩

/-- Settles O20: what each cause does to `DONE`, then that `step_flags` knows no other cause. -/
theorem doneIsTheOnePendingBit : Obligations.DoneIsTheOnePendingBit := by
  intro s t hs
  refine ⟨done_of_completion hs, fun hlow hhigh => ?_, done_of_reset hs, fun c hw => ?_, fun v hw hv => ?_,
    fun hhigh hlow => ?_, rfl⟩
  · rcases step_flags hs with ⟨hc, -⟩ | hr | ⟨⟨c, hw⟩, -⟩ | ⟨v, -, hdone, -⟩ | ⟨hdone, -⟩
    · exact hc
    · simp [done_of_reset hs hr] at hhigh
    · simp [done_of_issue hs hw] at hhigh
    · simp [hdone, hlow] at hhigh
    · simp [hdone, hlow] at hhigh
  · exact done_of_issue hs hw
  · obtain ⟨rest, rfl⟩ := hw.step_eq (r := .status) hs
    simp [writeReg, hv]
  · rcases step_flags hs with ⟨-, hdone, -⟩ | hr | ⟨hw, -⟩ | ⟨v, hw, hdone, -⟩ | ⟨hdone, -⟩
    · simp [hdone] at hlow
    · exact .inl hr
    · exact .inr (.inl hw)
    · exact .inr (.inr ⟨v, hw, by simpa [hdone, hhigh] using hlow⟩)
    · simp [hdone, hhigh] at hlow

/-! ### Writes while busy -/

/-- No command looks at `BUSY_VIOL`, at the port's answer or at what is pending (60_exceptions.md R188). -/
theorem exec_ignores_violation {i : Instr} {s t : State} (h : exec i s = .next t) (viol : Bool)
    (p : PortResponse) (q : List Event) :
    exec i { s with busyViol := viol, port := p, pending := q } =
      .next { t with busyViol := viol, port := p, pending := q } := by
  rcases exec_cases h with ⟨rfl, hl, rfl⟩ | ⟨rfl, hl, rfl⟩ | ⟨rfl, hp, mem, hmem, rfl⟩ | ⟨rfl, hp, rfl⟩ |
    ⟨rfl, hp, answer, hanswer, rfl⟩ | ⟨⟨rfl, hp⟩ | ⟨rfl, hp⟩ | ⟨rfl, hp⟩, rfl⟩
  · exact execInit_of_legal hl
  · exact execInit_of_illegal hl
  · exact execSet_of_setBits hp hmem
  · exact execSeal_of_build hp
  · exact execTest_of_testBits hp hanswer
  · exact execSet_of_wrongPhase hp
  · exact execSeal_of_wrongPhase hp
  · exact execTest_of_wrongPhase hp

theorem complete_ignores_violation {s t : State} (h : complete s = .next t) (viol : Bool)
    (p : PortResponse) (q : List Event) :
    complete { s with busyViol := viol, port := p, pending := q } =
      .next { t with busyViol := viol, port := p, pending := q } := by
  rcases complete_cases h with ⟨i, hd, hx⟩ | ⟨e, hd, rfl⟩
  · exact (complete_of_decodeWord (s := { s with busyViol := viol, port := p, pending := q }) hd).trans
      (exec_ignores_violation hx viol p q)
  · exact complete_of_illegal hd

theorem busyViol_dropped {s t : State} (hs : step s = .next t) (hhigh : s.busyViol = true)
    (hlow : t.busyViol = false) :
    takesReset s = true ∨ ∃ v, TakesWrite s 0x08 v ∧ v.getLsbD 12 = true := by
  rcases step_flags hs with ⟨-, -, hviol⟩ | hr | ⟨-, hviol⟩ | ⟨v, hw, -, hviol⟩ | ⟨-, hkeeps⟩
  · simp [hviol, hhigh] at hlow
  · exact .inl hr
  · simp [hviol, hhigh] at hlow
  · exact .inr ⟨v, hw, by simpa [hviol, hhigh] using hlow⟩
  · simp [hkeeps hhigh] at hlow

/-- Settles O18: the write while busy as a step, the causes that drop `BUSY_VIOL`, and a completion that
does not see the write. -/
theorem writeWhileBusyIsDroppedAndFlagged : Obligations.WriteWhileBusyIsDroppedAndFlagged := by
  refine ⟨fun s offset v rest hb hmul hlt hp => ?_, fun s t => busyViol_dropped, fun s t q p hc => ?_⟩
  · exact next_and_forall (step_write_of_busy hmul hlt hb hp) rfl
  · exact complete_ignores_violation hc true p q

end Sys2Proof.Machine

/-! SUPPORT and PROOFS. Reset and the hazards of the bus: what the window shows after the reset event, and a
register read right after it was written. -/

namespace Sys2Proof.Machine

/-! ### What the window shows after reset -/

/-- Reset leaves the constant registers (10_state.md R25). -/
theorem readReg_assertReset_of_constant {r : Reg}
    (hr : r = .id ∨ r = .paramWordWidth ∨ r = .paramMaxWords ∨ r = .paramKMax ∨ r = .paramLanes)
    (s : State) : readReg (assertReset s) r = readReg s r := by
  rcases hr with rfl | rfl | rfl | rfl | rfl <;> rfl

/-- The record is 0, so the capacity is, whatever the word width (10_state.md R24, R37). -/
theorem capacity_assertReset (s : State) : capacity (assertReset s) = 0 := BitVec.zero_mul

/-- Every other register reads 0 after reset (10_state.md R37): `CTRL` and `STATUS` have the fields they have in
`State.reset`. -/
theorem readReg_assertReset_of_not_constant {r : Reg} (hid : r ≠ .id) (hwidth : r ≠ .paramWordWidth)
    (hwords : r ≠ .paramMaxWords) (hkmax : r ≠ .paramKMax) (hlanes : r ≠ .paramLanes) (s : State) :
    readReg (assertReset s) r = 0 := by
  obtain ⟨-, hctrl, hstatus, -⟩ := registersAtReset
  cases r with
  | id => exact absurd rfl hid
  | paramWordWidth => exact absurd rfl hwidth
  | paramMaxWords => exact absurd rfl hwords
  | paramKMax => exact absurd rfl hkmax
  | paramLanes => exact absurd rfl hlanes
  | ctrl => exact hctrl
  | status => exact hstatus
  | fltCapacityLo => exact congrArg (BitVec.extractLsb' 0 32) (capacity_assertReset s)
  | fltCapacityHi => exact congrArg (BitVec.extractLsb' 32 32) (capacity_assertReset s)
  | _ => rfl

/-! ### Settled: the reset event -/

/-- Settles O48: reset is one step whatever is in flight, and that no other step reaches `EMPTY` is the last
clause of `filterLifecycle`. -/
theorem resetEvent : Obligations.ResetEvent := by
  refine ⟨fun s rest hp => ?_, fun s t hs => ?_⟩
  · exact ⟨_, step_rst hp, rfl, rfl, rfl, rfl, rfl, rfl, rfl, fun _ => rfl,
      fun _ hr => readReg_assertReset_of_constant hr { s with pending := rest },
      fun _ hid hwidth hwords hkmax hlanes =>
        readReg_assertReset_of_not_constant hid hwidth hwords hkmax hlanes _⟩
  · obtain ⟨-, -, -, hempty⟩ := filterLifecycle s t hs
    exact hempty

/-! ### A register read after its write -/

/-- `CTRL` keeps bit 0 of what is written (10_state.md R14). -/
theorem ctrlWord_writeCtrl (v : Word) (s : State) : ctrlWord (writeCtrl v s) = v &&& 1 := by
  refine BitVec.eq_of_getLsbD_eq fun b _ => ?_
  rcases Nat.eq_zero_or_pos b with rfl | hb
  · exact (BitVec.getLsbD_append (x := 0#31)).trans (by simp)
  · simp [ctrlWord_getLsbD _ hb, BitVec.getLsbD_one, Nat.ne_of_gt hb]

/-- A read-write register reads what was written to it (10_state.md R12). -/
theorem readReg_writeReg_same {r : Reg}
    (hr : r = .ctrl ∨ r = .cfgBitCount ∨ r = .cfgProbeCount ∨ r = .keyLo ∨ r = .keyHi)
    (v : Word) (s : State) :
    readReg (writeReg r v s) r = if r = .ctrl then v &&& 1 else v := by
  rcases hr with rfl | rfl | rfl | rfl | rfl
  · exact ctrlWord_writeCtrl v s
  all_goals rfl

theorem writeReg_pending (r : Reg) (v : Word) (s : State) : (writeReg r v s).pending = s.pending := by
  cases r <;> rfl

/-- No register shows the port's answer or what is pending. -/
theorem readReg_withPort (s : State) (q : List Event) (p : PortResponse) (r : Reg) :
    readReg { s with pending := q, port := p } r = readReg s r := by
  cases r <;> rfl

/-- A read of a register, as a step. -/
theorem step_readReg {s : State} {r : Reg} {rest : List Event}
    (hp : s.pending = Event.read (regOffset r) :: rest) :
    step s = .next { s with pending := rest, port := .data (readReg s r) } := by
  rw [step_access hp]
  simp [portAccess, regOffset_wellFormed, portRead, readReg_withPort s rest s.port r]

/-! ### Settled: the read after the write -/

/-- Settles O15: the write's step leaves the read pending; the read's step answers what the write left in the
register, past the port's answer to the write. -/
theorem writtenValueReadsBackAtOnce : Obligations.WrittenValueReadsBackAtOnce := by
  intro s r v rest hb hr hp
  have hwrite := step_writeReg hb hp
  have hread := step_readReg (s := { writeReg r v { s with pending := Event.read (regOffset r) :: rest } with
    port := .written }) (writeReg_pending r v _)
  refine ⟨_, (run_succ 1 hwrite).trans (run_succ 0 hread), ?_, rfl⟩
  exact congrArg PortResponse.data ((readReg_withPort _ _ _ r).trans (readReg_writeReg_same hr v _))

end Sys2Proof.Machine
